-- ==== Sys2Proof/Word.lean ====
section
/-! DEFINITION. The words the block moves (00_scope.md R7, R9): bytes, 32-bit register values and addresses, the
64-bit counter, and a group of four like things (four compare channels, R21, R31). -/

namespace Sys2Proof

/-- One byte of guest memory. -/
abbrev Byte := BitVec 8

/-- A register value, an offset or a guest physical address: `DATA_BITS = ADDR_BITS = 32` (R7). -/
abbrev Word := BitVec 32

/-- A counter value or a deadline: `COUNTER_BITS = 64` (R7). -/
abbrev Count := BitVec 64

/-- Four like things, one per compare channel: `x[0]` to `x[3]` (`N_COMPARE = 4`, R7). -/
structure Quad (α : Type) where
  c0 : α
  c1 : α
  c2 : α
  c3 : α
  deriving DecidableEq, Repr

/-- `x[i]` (R10). -/
def Quad.get {α : Type} (q : Quad α) (i : Fin 4) : α :=
  match i with
  | 0 => q.c0
  | 1 => q.c1
  | 2 => q.c2
  | 3 => q.c3

/-- `x[i] <- v` (R10). -/
def Quad.set {α : Type} (q : Quad α) (i : Fin 4) (v : α) : Quad α :=
  match i with
  | 0 => { q with c0 := v }
  | 1 => { q with c1 := v }
  | 2 => { q with c2 := v }
  | 3 => { q with c3 := v }

/-- The same value at every index. -/
def Quad.const {α : Type} (v : α) : Quad α := ⟨v, v, v, v⟩

end Sys2Proof
end

