-- ==== Sys2Proof/Config.lean ====
section
/-! DEFINITION. What is fixed for one block (00_scope.md R7): the device instances, the source's constants, the
parameters, and the one free value the spec leaves (the byte an address without guest RAM
answers, 20_memory.md R69). -/

namespace Sys2Proof

/-- The four device instances (R2, R24). -/
inductive Device where
  | power
  | fbctl
  | st
  | vchiq
  deriving DecidableEq, Repr

/-- The three mailbox channel devices (R23, R24). -/
inductive Mailbox where
  | power
  | fbctl
  | vchiq
  deriving DecidableEq, Repr

/-- The device instance a mailbox channel is. -/
def Mailbox.device : Mailbox → Device
  | .power => .power
  | .fbctl => .fbctl
  | .vchiq => .vchiq

/-- `COUNTER_HZ` (R7, R178). No rule depends on it. -/
def Config.counterHz : Nat := 1000000

/-- The record EV.SAVE produces and EV.RESTORE takes (44_host_operations.md R220, R221). The mask stands in a whole
word, so that a record whose mask has a bit above bit 3 (R223) can be named, and refused. -/
structure SaveRecord where
  compare  : Quad Word
  matchMask : Word
  deriving DecidableEq, Repr

/-- A range of un-banked guest physical addresses. -/
structure Region where
  start : Nat
  len   : Nat
  deriving DecidableEq, Repr

/-- The parameters of R7. `base*` are `BASE[d]`; `ram` says which un-banked addresses hold guest RAM, the part of the
`Mem` oracle that R69 distinguishes. DESIGN CHOICE (log 1): they stand in State as a field no step writes. -/
structure Params where
  mboxWindow : Nat
  stWindow   : Nat
  basePower  : Word
  baseFbctl  : Word
  baseSt     : Word
  baseVchiq  : Word
  t0         : Count
  vramOrigin : Word
  vramSize   : Nat
  bankMask   : Word
  ram        : List Region
  deriving DecidableEq, Repr

/-- The parameters of `State.reset`: the decided values and defaults of R7, and for the OPEN ones the values log 1 and
log 2 name. DESIGN CHOICE for `base*`, `t0`, `vramOrigin`, `vramSize` and `ram`. -/
def Params.default : Params where
  mboxWindow := 0x10
  stWindow   := 0x20
  basePower  := 0x3F000000
  baseFbctl  := 0x3F000100
  baseSt     := 0x3F000200
  baseVchiq  := 0x3F000300
  t0         := 0
  vramOrigin := 0x1C000000
  vramSize   := 0x04000000
  bankMask   := 0xC0000000
  ram        := [⟨0, 0x20000000⟩]

/-- The byte that a read of an address without guest RAM answers in the `n`-th push (R69 "an arbitrary value (a draw)",
93 U11). A free value (log 5): no body, so nothing can be proved of it. -/
opaque Config.freeByte (n : Nat) (a : Word) : Byte

end Sys2Proof
end

