-- ==== Sys2Proof/Syntax.lean ====
section
/-! DEFINITION. The transactions and events of the block, one constructor per row of opcode_table.json
(30_encoding.md R94, R101). A write carries its operand `wdata`, a refresh its success flag, a restore its record and
clock value; none of these is part of the transaction word (R91, R94). -/

namespace Sys2Proof

/-- One row of the opcode table, with the operands that stand beside its transaction word. -/
inductive Instr where
  /-- `MBOX.WR_CMD.POWER` (R141) -/
  | mboxWrCmdPower (wdata : Word)
  /-- `MBOX.RD_ID.POWER` (R142) -/
  | mboxRdIdPower
  /-- `MBOX.RD_STATUS.POWER` (R143) -/
  | mboxRdStatusPower
  /-- `MBOX.WR_STATUS.POWER` (R144) -/
  | mboxWrStatusPower (wdata : Word)
  /-- `MBOX.WR_CMD.VCHIQ` (R141) -/
  | mboxWrCmdVchiq (wdata : Word)
  /-- `MBOX.RD_ID.VCHIQ` (R142) -/
  | mboxRdIdVchiq
  /-- `MBOX.RD_STATUS.VCHIQ` (R143) -/
  | mboxRdStatusVchiq
  /-- `MBOX.WR_STATUS.VCHIQ` (R144) -/
  | mboxWrStatusVchiq (wdata : Word)
  /-- `FB.WR_CMD` (R190) -/
  | fbWrCmd (wdata : Word)
  /-- `FB.RD_ID` (R201) -/
  | fbRdId
  /-- `FB.RD_STATUS` (R202) -/
  | fbRdStatus
  /-- `FB.WR_STATUS` (R204) -/
  | fbWrStatus (wdata : Word)
  /-- `ST.RD_MATCH` (R164) -/
  | stRdMatch
  /-- `ST.WR_MATCH` (R165) -/
  | stWrMatch (wdata : Word)
  /-- `ST.RD_CNT_LO` (R166) -/
  | stRdCntLo
  /-- `ST.RD_CNT_HI` (R167) -/
  | stRdCntHi
  /-- `ST.WR_CNT_LO` (R168) -/
  | stWrCntLo (wdata : Word)
  /-- `ST.WR_CNT_HI` (R168) -/
  | stWrCntHi (wdata : Word)
  /-- `ST.RD_CMP0` (R169) -/
  | stRdCmp0
  /-- `ST.RD_CMP1` (R169) -/
  | stRdCmp1
  /-- `ST.RD_CMP2` (R169) -/
  | stRdCmp2
  /-- `ST.RD_CMP3` (R169) -/
  | stRdCmp3
  /-- `ST.WR_CMP0` (R170) -/
  | stWrCmp0 (wdata : Word)
  /-- `ST.WR_CMP1` (R170) -/
  | stWrCmp1 (wdata : Word)
  /-- `ST.WR_CMP2` (R170) -/
  | stWrCmp2 (wdata : Word)
  /-- `ST.WR_CMP3` (R170) -/
  | stWrCmp3 (wdata : Word)
  /-- `EV.RESET` (R260) -/
  | evReset
  /-- `EV.ADVANCE` (R171) -/
  | evAdvance
  /-- `EV.TICK` (R172) -/
  | evTick
  /-- `EV.REFRESH` (R203); `ok`: the presentation succeeded -/
  | evRefresh (ok : Bool)
  /-- `EV.SAVE` (R220) -/
  | evSave
  /-- `EV.RESTORE` (R221); `clock` is the counter value `c` -/
  | evRestore (record : SaveRecord) (clock : Count)
  deriving DecidableEq, Repr

end Sys2Proof
end

