-- ==== Sys2Proof/WellFormed.lean ====
section
/-! DEFINITION. What the block may be asked to do: every field of an instruction fits its type, so the one check left is
the record of a restore (44_host_operations.md R223, 93 U19). -/

namespace Sys2Proof

/-- A record EV.SAVE can have produced: no mask bit above bit 3 (R223). -/
def SaveRecord.wellFormed (r : SaveRecord) : Bool := decide (r.matchMask &&& 0xFFFFFFF0 = 0)

/-- The restore's record is one EV.SAVE can have produced; everything else has no ill-formed value. -/
def Instr.wellFormed : Instr → Bool
  | .evRestore record _ => record.wellFormed
  | _ => true

end Sys2Proof
end

