-- ==== Sys2Proof/Decode.lean ====
section
/-! DEFINITION. The transaction word `TW` (30_encoding.md R91 to R94), the decoder (total: every word is a row, a reserved
transaction or invalid, R107) and the encoder. -/

namespace Sys2Proof

/-- The operand lines that accompany a transaction word (R91, R94); a transaction reads only its own.
DESIGN CHOICE (log 15). -/
structure Operands where
  wdata  : Word
  ok     : Bool
  record : SaveRecord
  clock  : Count
  deriving DecidableEq, Repr

/-- Every operand line at zero. -/
def Operands.zero : Operands := ⟨0, false, ⟨Quad.const 0, 0⟩, 0⟩

/-- What an agent presents to the block: a transaction word and the operand lines. -/
structure Packet where
  tw       : BitVec 40
  operands : Operands
  deriving DecidableEq, Repr

/-- A register access as the decode layer sees it (R90). -/
structure Access where
  dev   : Device
  write : Bool
  size  : BitVec 4
  off   : Word
  deriving DecidableEq, Repr

/-- Why a transaction word is not a transaction of the block (R102, last sentence; R107; R223). -/
inductive DecodeError where
  /-- `dev` is 4, 5 or 6 -/
  | noSuchDevice
  /-- `dev` is 7 and the word is none of the six event words -/
  | noSuchEvent
  /-- EV.RESTORE with a record that no EV.SAVE produced -/
  | malformedRecord
  deriving DecidableEq, Repr

/-- A word of the block: a row of the opcode table, or a reserved register transaction (R102). -/
inductive Decoded where
  | row (i : Instr)
  | reserved (a : Access)
  deriving DecidableEq, Repr

/-- `TW[39:37]` -/
def twDev (tw : BitVec 40) : BitVec 3 := tw.extractLsb' 37 3

/-- `TW[36]` -/
def twWrite (tw : BitVec 40) : Bool := tw.getLsbD 36

/-- `TW[35:32]` -/
def twSize (tw : BitVec 40) : BitVec 4 := tw.extractLsb' 32 4

/-- `TW[31:0]` -/
def twOff (tw : BitVec 40) : Word := tw.extractLsb' 0 32

/-- Device codes of a bus transaction (R92). -/
def deviceOf (code : Nat) : Option Device :=
  match code with
  | 0 => some .power
  | 1 => some .fbctl
  | 2 => some .st
  | 3 => some .vchiq
  | _ => none

/-- The register a 32-bit read at this offset reaches (R101, R122). -/
def readRow (d : Device) (off : Nat) : Option Instr :=
  match d, off with
  | .power, 0x00 => some .mboxRdIdPower
  | .power, 0x04 => some .mboxRdStatusPower
  | .vchiq, 0x00 => some .mboxRdIdVchiq
  | .vchiq, 0x04 => some .mboxRdStatusVchiq
  | .fbctl, 0x00 => some .fbRdId
  | .fbctl, 0x04 => some .fbRdStatus
  | .st, 0x00 => some .stRdMatch
  | .st, 0x04 => some .stRdCntLo
  | .st, 0x08 => some .stRdCntHi
  | .st, 0x0C => some .stRdCmp0
  | .st, 0x10 => some .stRdCmp1
  | .st, 0x14 => some .stRdCmp2
  | .st, 0x18 => some .stRdCmp3
  | _, _ => none

/-- The row a 32-bit write at this offset is (R101, R123); the read-only registers have rows of their own. -/
def writeRow (d : Device) (off : Nat) (wdata : Word) : Option Instr :=
  match d, off with
  | .power, 0x00 => some (.mboxWrCmdPower wdata)
  | .power, 0x04 => some (.mboxWrStatusPower wdata)
  | .vchiq, 0x00 => some (.mboxWrCmdVchiq wdata)
  | .vchiq, 0x04 => some (.mboxWrStatusVchiq wdata)
  | .fbctl, 0x00 => some (.fbWrCmd wdata)
  | .fbctl, 0x04 => some (.fbWrStatus wdata)
  | .st, 0x00 => some (.stWrMatch wdata)
  | .st, 0x04 => some (.stWrCntLo wdata)
  | .st, 0x08 => some (.stWrCntHi wdata)
  | .st, 0x0C => some (.stWrCmp0 wdata)
  | .st, 0x10 => some (.stWrCmp1 wdata)
  | .st, 0x14 => some (.stWrCmp2 wdata)
  | .st, 0x18 => some (.stWrCmp3 wdata)
  | _, _ => none

/-- The event of this number (R94). -/
def eventRow (number : Nat) (o : Operands) : Except DecodeError Decoded :=
  match number with
  | 0 => .ok (.row .evReset)
  | 1 => .ok (.row .evAdvance)
  | 2 => .ok (.row .evTick)
  | 3 => .ok (.row (.evRefresh o.ok))
  | 4 => .ok (.row .evSave)
  | 5 => if o.record.wellFormed then .ok (.row (.evRestore o.record o.clock)) else .error .malformedRecord
  | _ => .error .noSuchEvent

/-- The row of a register transaction: only a 32-bit access (`size = 4`) has one (R62, R95). -/
def accessRow (a : Access) (wdata : Word) : Option Instr :=
  if a.size = 4 then
    if a.write then writeRow a.dev a.off.toNat wdata else readRow a.dev a.off.toNat
  else none

/-- A register transaction: its row, or else reserved (R101, R102). -/
def decodeAccess (a : Access) (wdata : Word) : Decoded :=
  match accessRow a wdata with
  | some i => .row i
  | none => .reserved a

/-- The decoder of R107. An event has `w = 0` and `size = 0` (R94). -/
def decode (p : Packet) : Except DecodeError Decoded :=
  if twDev p.tw = 7 then
    if twWrite p.tw = false ∧ twSize p.tw = 0 then eventRow (twOff p.tw).toNat p.operands
    else .error .noSuchEvent
  else
    match deviceOf (twDev p.tw).toNat with
    | some d => .ok (decodeAccess ⟨d, twWrite p.tw, twSize p.tw, twOff p.tw⟩ p.operands.wdata)
    | none => .error .noSuchDevice

/-- `TW = {dev, w, size, off}` (R91). -/
def packTW (dev : BitVec 3) (w : BitVec 1) (size : BitVec 4) (off : Word) : BitVec 40 :=
  dev ++ w ++ size ++ off

/-- A 32-bit register read. -/
def readPacket (dev : BitVec 3) (off : Word) : Packet := ⟨packTW dev 0 4 off, .zero⟩

/-- A 32-bit register write of `wdata`. -/
def writePacket (dev : BitVec 3) (off wdata : Word) : Packet :=
  ⟨packTW dev 1 4 off, { Operands.zero with wdata := wdata }⟩

/-- Event `n` with the operand lines `o`. -/
def eventPacket (n : Word) (o : Operands) : Packet := ⟨packTW 7 0 0 n, o⟩

/-- The encoder: the transaction word of R91 with the row's device, direction, width and offset (R92, R94, R101), and
the operand lines, those the row does not use at zero. -/
def encode : Instr → Packet
  | .mboxWrCmdPower wdata => writePacket 0 0x00 wdata
  | .mboxRdIdPower => readPacket 0 0x00
  | .mboxRdStatusPower => readPacket 0 0x04
  | .mboxWrStatusPower wdata => writePacket 0 0x04 wdata
  | .mboxWrCmdVchiq wdata => writePacket 3 0x00 wdata
  | .mboxRdIdVchiq => readPacket 3 0x00
  | .mboxRdStatusVchiq => readPacket 3 0x04
  | .mboxWrStatusVchiq wdata => writePacket 3 0x04 wdata
  | .fbWrCmd wdata => writePacket 1 0x00 wdata
  | .fbRdId => readPacket 1 0x00
  | .fbRdStatus => readPacket 1 0x04
  | .fbWrStatus wdata => writePacket 1 0x04 wdata
  | .stRdMatch => readPacket 2 0x00
  | .stWrMatch wdata => writePacket 2 0x00 wdata
  | .stRdCntLo => readPacket 2 0x04
  | .stRdCntHi => readPacket 2 0x08
  | .stWrCntLo wdata => writePacket 2 0x04 wdata
  | .stWrCntHi wdata => writePacket 2 0x08 wdata
  | .stRdCmp0 => readPacket 2 0x0C
  | .stRdCmp1 => readPacket 2 0x10
  | .stRdCmp2 => readPacket 2 0x14
  | .stRdCmp3 => readPacket 2 0x18
  | .stWrCmp0 wdata => writePacket 2 0x0C wdata
  | .stWrCmp1 wdata => writePacket 2 0x10 wdata
  | .stWrCmp2 wdata => writePacket 2 0x14 wdata
  | .stWrCmp3 wdata => writePacket 2 0x18 wdata
  | .evReset => eventPacket 0 .zero
  | .evAdvance => eventPacket 1 .zero
  | .evTick => eventPacket 2 .zero
  | .evRefresh ok => eventPacket 3 { Operands.zero with ok := ok }
  | .evSave => eventPacket 4 .zero
  | .evRestore record clock => eventPacket 5 { Operands.zero with record := record, clock := clock }

/-- The device's code in `TW[39:37]` (R92). -/
def Device.code : Device → BitVec 3
  | .power => 0
  | .fbctl => 1
  | .st => 2
  | .vchiq => 3

/-- The packet of a register access, rows and reserved transactions alike (R91). -/
def accessPacket (a : Access) (wdata : Word) : Packet :=
  ⟨packTW a.dev.code (BitVec.ofBool a.write) a.size a.off, { Operands.zero with wdata := wdata }⟩

/-- The row's mnemonic in opcode_table.json. -/
def Instr.mnemonic : Instr → String
  | .mboxWrCmdPower _ => "MBOX.WR_CMD.POWER"
  | .mboxRdIdPower => "MBOX.RD_ID.POWER"
  | .mboxRdStatusPower => "MBOX.RD_STATUS.POWER"
  | .mboxWrStatusPower _ => "MBOX.WR_STATUS.POWER"
  | .mboxWrCmdVchiq _ => "MBOX.WR_CMD.VCHIQ"
  | .mboxRdIdVchiq => "MBOX.RD_ID.VCHIQ"
  | .mboxRdStatusVchiq => "MBOX.RD_STATUS.VCHIQ"
  | .mboxWrStatusVchiq _ => "MBOX.WR_STATUS.VCHIQ"
  | .fbWrCmd _ => "FB.WR_CMD"
  | .fbRdId => "FB.RD_ID"
  | .fbRdStatus => "FB.RD_STATUS"
  | .fbWrStatus _ => "FB.WR_STATUS"
  | .stRdMatch => "ST.RD_MATCH"
  | .stWrMatch _ => "ST.WR_MATCH"
  | .stRdCntLo => "ST.RD_CNT_LO"
  | .stRdCntHi => "ST.RD_CNT_HI"
  | .stWrCntLo _ => "ST.WR_CNT_LO"
  | .stWrCntHi _ => "ST.WR_CNT_HI"
  | .stRdCmp0 => "ST.RD_CMP0"
  | .stRdCmp1 => "ST.RD_CMP1"
  | .stRdCmp2 => "ST.RD_CMP2"
  | .stRdCmp3 => "ST.RD_CMP3"
  | .stWrCmp0 _ => "ST.WR_CMP0"
  | .stWrCmp1 _ => "ST.WR_CMP1"
  | .stWrCmp2 _ => "ST.WR_CMP2"
  | .stWrCmp3 _ => "ST.WR_CMP3"
  | .evReset => "EV.RESET"
  | .evAdvance => "EV.ADVANCE"
  | .evTick => "EV.TICK"
  | .evRefresh _ => "EV.REFRESH"
  | .evSave => "EV.SAVE"
  | .evRestore _ _ => "EV.RESTORE"

/-- opcode_table.json, the plain mailbox rows: mnemonic and match value (every mask is all ones, R101). -/
def opcodeTableMailboxRows : List (String × BitVec 40) :=
  [("MBOX.WR_CMD.POWER", 0x1400000000),
   ("MBOX.RD_ID.POWER", 0x0400000000),
   ("MBOX.RD_STATUS.POWER", 0x0400000004),
   ("MBOX.WR_STATUS.POWER", 0x1400000004),
   ("MBOX.WR_CMD.VCHIQ", 0x7400000000),
   ("MBOX.RD_ID.VCHIQ", 0x6400000000),
   ("MBOX.RD_STATUS.VCHIQ", 0x6400000004),
   ("MBOX.WR_STATUS.VCHIQ", 0x7400000004)]

/-- opcode_table.json, the framebuffer rows: mnemonic and match value (every mask is all ones, R101). -/
def opcodeTableFramebufferRows : List (String × BitVec 40) :=
  [("FB.WR_CMD", 0x3400000000),
   ("FB.RD_ID", 0x2400000000),
   ("FB.RD_STATUS", 0x2400000004),
   ("FB.WR_STATUS", 0x3400000004)]

/-- opcode_table.json, the timer rows: mnemonic and match value (every mask is all ones, R101). -/
def opcodeTableTimerRows : List (String × BitVec 40) :=
  [("ST.RD_MATCH", 0x4400000000),
   ("ST.WR_MATCH", 0x5400000000),
   ("ST.RD_CNT_LO", 0x4400000004),
   ("ST.RD_CNT_HI", 0x4400000008),
   ("ST.WR_CNT_LO", 0x5400000004),
   ("ST.WR_CNT_HI", 0x5400000008),
   ("ST.RD_CMP0", 0x440000000C),
   ("ST.RD_CMP1", 0x4400000010),
   ("ST.RD_CMP2", 0x4400000014),
   ("ST.RD_CMP3", 0x4400000018),
   ("ST.WR_CMP0", 0x540000000C),
   ("ST.WR_CMP1", 0x5400000010),
   ("ST.WR_CMP2", 0x5400000014),
   ("ST.WR_CMP3", 0x5400000018)]

/-- opcode_table.json, the event rows: mnemonic and match value (every mask is all ones, R101). -/
def opcodeTableEventRows : List (String × BitVec 40) :=
  [("EV.RESET", 0xE000000000),
   ("EV.ADVANCE", 0xE000000001),
   ("EV.TICK", 0xE000000002),
   ("EV.REFRESH", 0xE000000003),
   ("EV.SAVE", 0xE000000004),
   ("EV.RESTORE", 0xE000000005)]

/-- opcode_table.json: every row's mnemonic and match value (R101, R107). -/
def opcodeTable : List (String × BitVec 40) :=
  opcodeTableMailboxRows ++ opcodeTableFramebufferRows ++ opcodeTableTimerRows ++ opcodeTableEventRows

/-- The packet of a table word: the word as the table numbers its bits, every operand line at zero. -/
def tablePacket (w : Nat) : Packet := ⟨BitVec.ofNat 40 w, .zero⟩

/-- What the decoder reads from a table row's bits (the row's mnemonic has `nbits = 40`): a number of more than 40 bits
is no transaction word. -/
def decodeTableWord (nbits w : Nat) : Option Instr :=
  if nbits ≤ 40 ∧ w < 2 ^ 40 then
    match decode (tablePacket w) with
    | .ok (.row i) => some i
    | _ => none
  else none

end Sys2Proof
end

