-- ==== Sys2Proof/Machine/State.lean ====
section
/-! DEFINITION. The state of the block (10_state.md R20) as plain data, the outcomes a step can end in, and the state
right after reset (R47). Fields that are the model's own say so. -/

namespace Sys2Proof.Machine

/-- A mailbox channel device (R23): its pending flag and the level of its interrupt line, `true` = asserted (R237). -/
structure Channel where
  pending : Bool
  line    : Bool
  deriving DecidableEq, Repr

/-- The system timer (R26 to R31). `matched` is the spec's `match`; `lines` are `irq_st[0..3]`, `true` = asserted. -/
structure Timer where
  counter : Count
  compare : Quad Word
  matched : BitVec 4
  next    : Word
  wake    : Option Count
  lines   : Quad Bool
  deriving DecidableEq, Repr

/-- The size in pixels last requested of the presentation surface (R37). -/
structure Surface where
  width  : Word
  height : Word
  deriving DecidableEq, Repr

/-- The framebuffer controller's latches and flags (R34 to R37). -/
structure Framebuffer where
  xres        : Word
  yres        : Word
  xresVirtual : Word
  yresVirtual : Word
  bpp         : Word
  xoffset     : Word
  yoffset     : Word
  pitch       : Word
  size        : Word
  base        : Word
  enabled     : Bool
  invalidate  : Bool
  surface     : Surface
  deriving DecidableEq, Repr

/-- Guest protocol error codes (60_exceptions.md R231). -/
inductive GuestCode where
  /-- `GE_RANGE` = 1 -/
  | range
  /-- `GE_ACCESS` = 2 -/
  | access
  /-- `GE_UNDEF` = 3 -/
  | undef
  /-- `GE_REENTRANT` = 4 -/
  | reentrant
  deriving DecidableEq, Repr

/-- One record of the guest-error channel: `(device, code, offset)` (R40, R231). -/
structure GuestError where
  device : Device
  code   : GuestCode
  offset : Word
  deriving DecidableEq, Repr

/-- A fatal configuration error with what is recorded for the host (R232, R235). -/
inductive FatalError where
  /-- `FE_BPP` = 1, with the offending `bpp` -/
  | bpp (value : Word)
  /-- `FE_SIZE` = 2, with `(xres, yres)` -/
  | size (xres yres : Word)
  deriving DecidableEq, Repr

/-- The read-only view of the pixel buffer a refresh exposes (43_framebuffer.md R203). -/
structure View where
  addr   : Word
  len    : Word
  width  : Word
  height : Word
  stride : Word
  full   : Bool
  deriving DecidableEq, Repr

/-- What a step gives back to the agent that made it or to a collaborator (log 13, the model's own). -/
inductive Response where
  /-- nothing -/
  | none
  /-- a register read's 32-bit result (R90, R100) -/
  | rdata (value : Word)
  /-- the surface resize request of an accepted push (R199) -/
  | resize (width height : Word)
  /-- the view a refresh presents (R203) -/
  | view (v : View)
  /-- the record of EV.SAVE (R220) -/
  | record (r : SaveRecord)
  /-- the record of a fatal configuration error, for the host (R235) -/
  | fatal (e : FatalError)
  deriving DecidableEq, Repr

/-- Guest physical memory: (un-banked address, byte) pairs, addresses strictly rising, no entry equal to
`unlistedByte` (R41, R60). -/
abbrev Memory := List Host.Cell

/-- What a byte of guest RAM that nothing has written reads as. DESIGN CHOICE (log 4), unsafe. -/
def unlistedByte : Byte := 0

/-- Memory is in its one canonical form. -/
def Memory.wf : Memory → Bool
  | [] => true
  | c :: m => decide (c.2 ≠ unlistedByte) && m.all (fun e => decide (c.1 < e.1)) && Memory.wf m

/-- What an agent does next (R3): a transaction or event, or a guest store to memory, which is no step of the block
but stands between steps (R73; log 7, log 19). -/
inductive Stimulus where
  | packet (p : Packet)
  | guestStore (addr : Word) (bytes : List Byte)
  deriving DecidableEq, Repr

/-- The state (R20). `params`, `draws`, `inbox` and `out` are the model's own fields (log 1, 5, 7, 13). -/
structure State where
  /-- the parameters (00_scope.md R7); no step writes them -/
  params : Params
  /-- `pending[POWER]`, `irq_mbox[POWER]` -/
  power  : Channel
  /-- `pending[FBCTL]`, `irq_mbox[FBCTL]` -/
  fbctl  : Channel
  /-- `pending[VCHIQ]`, `irq_mbox[VCHIQ]` -/
  vchiq  : Channel
  /-- the system timer -/
  st     : Timer
  /-- the framebuffer latches -/
  fb     : Framebuffer
  /-- sticky, set by a fatal configuration error (R39) -/
  halted : Bool
  /-- the guest-error channel, oldest first (R40) -/
  gerr   : List GuestError
  /-- guest physical memory (R41) -/
  mem    : Memory
  /-- how many pushes have read memory: the index of their free values -/
  draws  : Nat
  /-- the agents' coming actions, next first -/
  inbox  : List Stimulus
  /-- what the last step gave back -/
  out    : Response
  deriving DecidableEq, Repr

/-- Why the machine stops with a fault. -/
inductive Fault where
  /-- Any action but EV.RESET on a halted platform: "no step of the block is enabled except EV.RESET" and a model
  treats a halted state as a fault (R39, R129, R235). Raised by every other meaning. Safe. -/
  | platformHalted
  deriving DecidableEq, Repr

/-- Why the model gives an action no meaning. -/
inductive Refusal where
  /-- an instruction not modelled yet; no arm uses it. Safe. -/
  | notModelled (mnemonic : String)
  /-- a transaction word with `dev` 4, 5 or 6 (R102). Raised by the step. Safe. -/
  | noSuchDevice
  /-- an event word that is none of the six (R102, R107). Raised by the step. Safe. -/
  | noSuchEvent
  /-- EV.RESTORE with a record no EV.SAVE produced (R223, 93 U19). Raised by the step and by EV.RESTORE. Safe. -/
  | malformedRecord
  /-- EV.TICK while no deadline equals the counter: not enabled (R172). Raised by EV.TICK. Safe. -/
  | tickNotDue
  /-- EV.ADVANCE while EV.TICK is enabled: not enabled (R171, R173). Raised by EV.ADVANCE. Safe. -/
  | tickDueFirst
  /-- a push whose 40 descriptor bytes touch a register window: "not given a meaning" (R69, 93 U9). Raised by FB.WR_CMD. Safe. -/
  | descriptorOverWindow
  /-- a push whose pixel buffer touches a register window (93 U9). Raised by FB.WR_CMD. Safe. -/
  | bufferOverWindow
  /-- a guest store, brought as a store to memory, that touches a register window (93 U9). Raised by the step. Safe. -/
  | storeOverWindow
  /-- parameters that break R8: "a model should refuse a configuration that breaks one"; or a register window over
  guest RAM or VRAM (93 U9). Raised by the step. Safe. -/
  | badConfiguration
  deriving DecidableEq, Repr

/-- The outcome of an action. -/
abbrev Result := Host.Outcome State Fault Refusal

/-- An Idle channel with its line deasserted (R23, R47). -/
def Channel.idle : Channel := ⟨false, false⟩

/-- Every latch zero, not enabled, nothing to repaint (R47). -/
def Framebuffer.zero : Framebuffer :=
  { xres := 0, yres := 0, xresVirtual := 0, yresVirtual := 0, bpp := 0, xoffset := 0, yoffset := 0
    pitch := 0, size := 0, base := 0, enabled := false, invalidate := false, surface := ⟨0, 0⟩ }

/-- The state right after reset (R47) of the block with the parameters of `Params.default`: `counter = T0 = 0`, so the
reset's Reschedule leaves `next = 0` and `wake = some 0` (R261; log 2). Nothing is in memory or on its way. -/
def State.reset : State where
  params := Params.default
  power  := .idle
  fbctl  := .idle
  vchiq  := .idle
  st     := { counter := 0, compare := Quad.const 0, matched := 0, next := 0, wake := some 0, lines := Quad.const false }
  fb     := .zero
  halted := false
  gerr   := []
  mem    := []
  draws  := 0
  inbox  := []
  out    := .none

end Sys2Proof.Machine
end

