-- ==== Sys2Proof/Machine/Operands.lean ====
section
/-! DEFINITION. Every operand and result form of the block: the halves of the counter, the pushed value's fields
(30_encoding.md R96), the acknowledge mask (R97), the read results (R100), the descriptor's layout (R99), the device
parameters (00_scope.md R7) and their constraints (R8). -/

namespace Sys2Proof

/-- `low32(counter)`, that is `counter[31:0]` (10_state.md R26). -/
def low32 (c : Count) : Word := c.extractLsb' 0 32

/-- `counter[63:32]` (R100). -/
def high32 (c : Count) : Word := c.extractLsb' 32 32

/-- `CHANNEL_ID[d]`, fixed by the source: POWER 0, FBCTL 1, VCHIQ 3 of nine channels (R7, R24, R25). -/
def Mailbox.channelId : Mailbox → Fin 9
  | .power => 0
  | .fbctl => 1
  | .vchiq => 3

/-- `WINDOW[dev]` (40_register_device.md R120, R122). -/
def Params.window (p : Params) : Device → Nat
  | .power => p.mboxWindow
  | .fbctl => p.mboxWindow
  | .vchiq => p.mboxWindow
  | .st => p.stWindow

/-- `BASE[d]` (R7). -/
def Params.baseOf (p : Params) : Device → Word
  | .power => p.basePower
  | .fbctl => p.baseFbctl
  | .st => p.baseSt
  | .vchiq => p.baseVchiq

/-- The `m` bytes from `a` on and the `n` bytes from `b` on, both counted mod 2^32 (20_memory.md R68), have an address in
common: one range starts inside the other. -/
def rangesMeet (a : Word) (m : Nat) (b : Word) (n : Nat) : Bool :=
  decide (0 < m) && (decide (0 < n) && (decide ((b - a).toNat < m) || decide ((a - b).toNat < n)))

/-- The register windows of two devices, as ranges of physical addresses, have no address in common (R8). DESIGN CHOICE
(log 26): a window that runs past 2^32 goes on at address 0. -/
def Params.windowsApart (p : Params) (d e : Device) : Bool :=
  !rangesMeet (p.baseOf d) (p.window d) (p.baseOf e) (p.window e)

/-- The un-banked address: the bits of `BANK_MASK` cleared (00_scope.md glossary, 20_memory.md R76). -/
def Params.unbank (p : Params) (a : Word) : Word := a &&& ~~~p.bankMask

/-- The address holds guest RAM: its un-banked address lies in a RAM region (R69, R76). DESIGN CHOICE (log 25): every
bank alias of an un-banked RAM address holds RAM, of which R76 says only what it names when it does. -/
def Params.isRam (p : Params) (a : Word) : Bool :=
  p.ram.any fun r => decide (r.start ≤ (p.unbank a).toNat) && decide ((p.unbank a).toNat < r.start + r.len)

/-- The address lies in the VRAM region or in a bank alias of it (R7, 90_conflicts.md C3). -/
def Params.isVram (p : Params) (a : Word) : Bool :=
  decide (p.vramOrigin.toNat ≤ (p.unbank a).toNat) && decide ((p.unbank a).toNat < p.vramOrigin.toNat + p.vramSize)

/-- No address of the device's register window holds guest RAM or lies in VRAM, under any alias of either
(93_implementation_defined.md U9: `refuse`; log 16). A window that runs past 2^32 goes on at address 0 (log 26). -/
def Params.windowClear (p : Params) (d : Device) : Bool :=
  (List.range (p.window d)).all fun k =>
    !p.isRam (p.baseOf d + BitVec.ofNat 32 k) && !p.isVram (p.baseOf d + BitVec.ofNat 32 k)

/-- No address of the VRAM region has a bit of `BANK_MASK` (R8), said by the region's two ends: both are free of bank
bits, and the region is no longer than the lowest bank bit. DEDUCED (log 18) that this says it of every address. -/
def Params.vramUnbanked (p : Params) : Bool :=
  decide (p.vramOrigin &&& p.bankMask = 0) &&
  (decide (p.bankMask = 0) || decide (p.vramSize = 0) ||
    (decide ((p.vramOrigin + BitVec.ofNat 32 (p.vramSize - 1)) &&& p.bankMask = 0) &&
      decide (p.vramSize ≤ (p.bankMask &&& -p.bankMask).toNat)))

/-- The four register windows do not overlap each other (R8). -/
def Params.windowsDisjoint (p : Params) : Bool :=
  p.windowsApart .power .fbctl && (p.windowsApart .power .st && (p.windowsApart .power .vchiq &&
    (p.windowsApart .fbctl .st && (p.windowsApart .fbctl .vchiq && p.windowsApart .st .vchiq))))

/-- No register window lies over guest RAM or VRAM (U9). -/
def Params.windowsClear (p : Params) : Bool :=
  p.windowClear .power && (p.windowClear .fbctl && (p.windowClear .st && p.windowClear .vchiq))

/-- The constraints of R8, and those by which U9 refuses a window over guest RAM or VRAM. `VRAM_SIZE = 0` breaks none of
them and is allowed (log 27). -/
def Params.valid (p : Params) : Bool :=
  decide (0x08 ≤ p.mboxWindow) && (decide (0x1C ≤ p.stWindow) && (decide (p.vramOrigin &&& 0xF = 0) &&
    (decide (p.vramOrigin.toNat + p.vramSize ≤ 2 ^ 32) && (p.vramUnbanked && (p.windowsDisjoint && p.windowsClear)))))

/-- The `len` bytes from physical address `start` on touch the register window of `d`; either may run past 2^32 and goes on
at address 0 (the bytes by R68; the window by log 26). -/
def Params.touchesWindow (p : Params) (start : Word) (len : Nat) (d : Device) : Bool :=
  rangesMeet start len (p.baseOf d) (p.window d)

/-- The bytes touch some device's register window (U9), a range of physical addresses as they stand: a mirror of a window
is the platform's (20_memory.md R61), and answers here as an address without RAM (R69; log 16). -/
def Params.touchesSomeWindow (p : Params) (start : Word) (len : Nat) : Bool :=
  p.touchesWindow start len .power || p.touchesWindow start len .fbctl ||
  p.touchesWindow start len .st || p.touchesWindow start len .vchiq

/-- `A = wdata & 0xFFFFFFF0` (R96): the descriptor's address, the tag masked off. -/
def descriptorAddr (wdata : Word) : Word := wdata &&& 0xFFFFFFF0

/-- The length of a descriptor in bytes: ten words (R99). -/
def descriptorBytes : Nat := 40

/-- The byte offsets of the descriptor's ten words (R99). -/
def offXres : Word := 0
def offYres : Word := 4
def offXresVirtual : Word := 8
def offYresVirtual : Word := 12
def offPitch : Word := 16
def offBpp : Word := 20
def offXoffset : Word := 24
def offYoffset : Word := 28
def offBase : Word := 32
def offSize : Word := 36

/-- The acknowledge mask, `wdata[3:0]` (R97). -/
def ackMask (wdata : Word) : BitVec 4 := wdata.extractLsb' 0 4

/-- `ID`: `zext_32(CHANNEL_ID[d])` (R100). -/
def idWord (d : Mailbox) : Word := BitVec.ofNat 32 d.channelId.val

/-- `STATUS`: bit 0 is the pending flag, the rest zero (R100). -/
def statusWord (pending : Bool) : Word := if pending then 1 else 0

/-- `MATCH`: bits 3..0 are the mask, the rest zero (R100). -/
def matchWord (m : BitVec 4) : Word := m.zeroExtend 32

/-- The mask of a well-formed restore record (44_host_operations.md R221). -/
def SaveRecord.mask (r : SaveRecord) : BitVec 4 := r.matchMask.extractLsb' 0 4

/-- `GE_*` numbers (60_exceptions.md R231). -/
def Machine.GuestCode.number : Machine.GuestCode → Nat
  | .range => 1
  | .access => 2
  | .undef => 3
  | .reentrant => 4

/-- `FE_*` numbers (R232). -/
def Machine.FatalError.number : Machine.FatalError → Nat
  | .bpp _ => 1
  | .size _ _ => 2

end Sys2Proof
end

