-- ==== Sys2Proof/Machine/Flags.lean ====
section
/-! DEFINITION. The one-bit status flags and the lines that follow them (10_state.md R33, R42; 60_exceptions.md R236 to
R238), and the comparisons that decide an event's enabling and a push's acceptance. -/

namespace Sys2Proof.Machine

/-- `pending[d] <- true; RaiseLine(irq_mbox[d])` (41_mailbox_channel.md R141). Raising a raised line changes nothing
(R237). -/
def Channel.raise (_c : Channel) : Channel := ⟨true, true⟩

/-- `pending[d] <- false; LowerLine(irq_mbox[d])` (R142). -/
def Channel.lower (_c : Channel) : Channel := ⟨false, false⟩

/-- `match[i]` -/
def Timer.isMatched (t : Timer) (i : Fin 4) : Bool := t.matched.getLsbD i.val

/-- Channel `i` is eligible: its match bit is clear (42_system_timer.md R160). -/
def Timer.eligible (t : Timer) (i : Fin 4) : Bool := !t.isMatched i

/-- The mask with bit `i` alone. -/
def bitMask (i : Fin 4) : BitVec 4 := 1#4 <<< i.val

/-- `match[i] <- 0; LowerLine(irq_st[i])` when bit `i` of the acknowledge mask and of `match` are both set: one turn of
the loop of R165. -/
def Timer.acknowledgeChannel (ack : BitVec 4) (t : Timer) (i : Fin 4) : Timer :=
  if ack.getLsbD i.val = true ∧ t.isMatched i = true then
    { t with matched := t.matched &&& ~~~bitMask i, lines := t.lines.set i false }
  else t

/-- `match[i] <- 1; RaiseLine(irq_st[i])` when the channel is eligible and its target is the just-reached `next`: one
turn of the loop of R172. -/
def Timer.fireChannel (t : Timer) (i : Fin 4) : Timer :=
  if t.isMatched i = false ∧ t.compare.get i = t.next then
    { t with matched := t.matched ||| bitMask i, lines := t.lines.set i true }
  else t

/-- The channel indexes in the order of the loops `for i in 0..3`. -/
def channelIndexes : List (Fin 4) := [0, 1, 2, 3]

/-- The loop of R165 over all four channels. -/
def Timer.acknowledge (t : Timer) (ack : BitVec 4) : Timer :=
  channelIndexes.foldl (Timer.acknowledgeChannel ack) t

/-- The loop of R172 over all four channels. -/
def Timer.fire (t : Timer) : Timer := channelIndexes.foldl Timer.fireChannel t

/-- `irq_st[i]` driven to agree with `match[i]`, for each `i` (44_host_operations.md R221). -/
def linesOf (m : BitVec 4) : Quad Bool := ⟨m.getLsbD 0, m.getLsbD 1, m.getLsbD 2, m.getLsbD 3⟩

/-- The armed deadline is the current count: EV.TICK is enabled on a running platform (R172). -/
def Timer.tickDue (t : Timer) : Bool := decide (t.wake = some t.counter)

/-- Exact `pitch = xres * 2` (43_framebuffer.md R194, R196). -/
def exactPitch (xres : Word) : Nat := xres.toNat * 2

/-- Exact `size = yres * pitch` (R194, R196). -/
def exactSize (xres yres : Word) : Nat := yres.toNat * exactPitch xres

/-- The capacity bound of R195: both products fit in 32 bits and the buffer fits in the VRAM region. -/
def geometryFits (vramSize : Nat) (xres yres : Word) : Bool :=
  decide (exactPitch xres ≤ 0xFFFFFFFF) && decide (exactSize xres yres ≤ 0xFFFFFFFF) &&
  decide (exactSize xres yres ≤ vramSize)

end Sys2Proof.Machine
end

