-- ==== Sys2Proof/Machine/Ops.lean ====
section
/-! DEFINITION. The shared operations: what a step answers, the two error procedures (60_exceptions.md R234, R235) and
the acknowledge that stands where a return from one would (R243), the mailbox channels, guest memory (20_memory.md R66,
R69, R76), the reschedule procedure (42_system_timer.md R160) and the reset (70_reset_and_hazards.md R260). -/

namespace Sys2Proof.Machine

/-! ### Outcomes and errors -/

/-- End a step that gives nothing back. -/
def done (s : State) : Result := .next { s with out := .none }

/-- End a register read with the result `v` (00_scope.md R10, `return v`). -/
def reply (s : State) (v : Word) : Result := .next { s with out := .rdata v }

/-- Only a platform that is not halted takes the step (10_state.md R39, 40_register_device.md R129). -/
def whenRunning (s : State) (r : Result) : Result :=
  if s.halted then .fault .platformHalted else r

/-- `raise GuestError` in a write: the record is appended and the write has no further effect (R234). -/
def rejectWrite (s : State) (e : GuestError) : Result := done { s with gerr := s.gerr ++ [e] }

/-- `raise GuestError` in a read: the record is appended and the read returns 0 (R234). -/
def rejectRead (s : State) (e : GuestError) : Result := reply { s with gerr := s.gerr ++ [e] } 0

/-- `raise Fatal(code, info)`: the platform halts and the record goes to the host; no line changes (R235). The halted
state is a next state, which EV.RESET leaves (log 11). -/
def raiseFatal (s : State) (e : FatalError) : Result := .next { s with halted := true, out := .fatal e }

/-! ### Mailbox channels -/

/-- The channel of mailbox device `d`. -/
def State.channel (s : State) : Mailbox → Channel
  | .power => s.power
  | .fbctl => s.fbctl
  | .vchiq => s.vchiq

/-- Replace the channel of mailbox device `d`. -/
def State.setChannel (s : State) (d : Mailbox) (c : Channel) : State :=
  match d with
  | .power => { s with power := c }
  | .fbctl => { s with fbctl := c }
  | .vchiq => { s with vchiq := c }

/-- The doorbell of 41_mailbox_channel.md R141: set pending, assert the line. -/
def raiseDoorbell (s : State) (d : Mailbox) : State := s.setChannel d (s.channel d).raise

/-- The acknowledge of R142 and R243: clear pending, deassert the line. -/
def lowerDoorbell (s : State) (d : Mailbox) : State := s.setChannel d (s.channel d).lower

/-! ### Guest memory -/

/-- The byte at a key: the listed one, or what an unlisted byte reads as. -/
def Memory.lookup : Memory → Nat → Byte
  | [], _ => unlistedByte
  | c :: m, a => if c.1 = a then c.2 else Memory.lookup m a

/-- Put a cell in front of cells with higher keys, unless it holds what an unlisted byte reads as. -/
def Memory.cons (a : Nat) (b : Byte) (m : Memory) : Memory := if b = unlistedByte then m else (a, b) :: m

/-- Write the byte at a key and keep the canonical form. -/
def Memory.store : Memory → Nat → Byte → Memory
  | [], a, b => Memory.cons a b []
  | c :: m, a, b =>
    if a < c.1 then Memory.cons a b (c :: m)
    else if a = c.1 then Memory.cons a b m
    else c :: Memory.store m a b

/-- The byte of guest RAM at a physical address, bank bits included; none where there is no RAM (R69, R76). -/
def Memory.ramByte (m : Memory) (p : Params) (a : Word) : Option Byte :=
  if p.isRam a then some (m.lookup (p.unbank a).toNat) else none

/-- Store one byte; where there is no RAM the write is dropped (R69). -/
def Memory.putByte (m : Memory) (p : Params) (a : Word) (b : Byte) : Memory :=
  if p.isRam a then m.store (p.unbank a).toNat b else m

/-- Byte `v[8k+7:8k]` (R66). -/
def byteOf (v : Word) (k : Nat) : Byte := v.extractLsb' (8 * k) 8

/-- Store a word, little-endian, addresses mod 2^32 (R66, R68). -/
def Memory.putWord (m : Memory) (p : Params) (a v : Word) : Memory :=
  (((m.putByte p a (byteOf v 0)).putByte p (a + 1) (byteOf v 1)).putByte p (a + 2) (byteOf v 2)).putByte p (a + 3)
    (byteOf v 3)

/-- Store consecutive bytes. -/
def Memory.putBytes (m : Memory) (p : Params) (a : Word) : List Byte → Memory
  | [] => m
  | b :: bs => Memory.putBytes (m.putByte p a b) p (a + 1) bs

/-- The byte of guest RAM at `a`, if there is one. -/
def peek (s : State) (a : Word) : Option Byte := s.mem.ramByte s.params a

/-- One byte of a `MemRead`: the RAM byte, or else a draw (R69). -/
def readByte (s : State) (a : Word) : Byte := (peek s a).getD (Config.freeByte s.draws a)

/-- `MemRead(addr, 4)`, little-endian, addresses mod 2^32 (R66, R68). -/
def memRead (s : State) (a : Word) : Word :=
  readByte s (a + 3) ++ readByte s (a + 2) ++ readByte s (a + 1) ++ readByte s a

/-- `MemWrite(addr, 4, v)` (R66). -/
def memWrite (s : State) (a v : Word) : State := { s with mem := s.mem.putWord s.params a v }

/-- The guest's own store of consecutive bytes (R73; log 19). -/
def storeBytes (s : State) (a : Word) (bytes : List Byte) : State := { s with mem := s.mem.putBytes s.params a bytes }

/-! ### The timer -/

/-- `delta[i] = (compare[i] - counter[31:0]) mod 2^32` (R161). -/
def Timer.delta (t : Timer) (i : Fin 4) : Word := t.compare.get i - low32 t.counter

/-- The least index with the smallest delta among those given (R160, R162). -/
def Timer.nearestOf (t : Timer) : List (Fin 4) → Option (Fin 4)
  | [] => none
  | i :: is =>
    match Timer.nearestOf t is with
    | none => some i
    | some k => if (t.delta i).toNat ≤ (t.delta k).toNat then some i else some k

/-- The channel `Reschedule()` selects: none when no channel is eligible (R160, R163). -/
def Timer.nearest (t : Timer) : Option (Fin 4) := t.nearestOf (channelIndexes.filter t.eligible)

/-- `Reschedule()` (R160, R163). -/
def Timer.reschedule (t : Timer) : Timer :=
  match t.nearest with
  | none => { t with wake := none }
  | some k => { t with next := t.compare.get k, wake := some (t.counter + (t.delta k).zeroExtend 64) }

/-- `compare[i] <- wdata; Reschedule()` (R170). -/
def Timer.setCompare (t : Timer) (i : Fin 4) (wdata : Word) : Timer :=
  Timer.reschedule { t with compare := t.compare.set i wdata }

/-- The timer's reset values before the reset's `Reschedule()` (10_state.md R47), with the counter at `c`. -/
def Timer.initial (c : Count) : Timer :=
  { counter := c, compare := Quad.const 0, matched := 0, next := 0, wake := none, lines := Quad.const false }

/-! ### Reset -/

/-- Every element at its reset value but for the timer, which is given (R47, R260): memory and the parameters stay, and
so do the model's own `inbox` and `draws`. -/
def resetWith (s : State) (t : Timer) : State :=
  { s with power := .idle, fbctl := .idle, vchiq := .idle, st := t, fb := .zero, halted := false, gerr := [], out := .none }

end Sys2Proof.Machine
end

