-- ==== Sys2Proof/Machine/Mailbox.lean ====
section
/-! DEFINITION. The plain mailbox channels POWER and VCHIQ (41_mailbox_channel.md R140 to R149). -/

namespace Sys2Proof.Machine

/-- `MBOX.WR_CMD(d, wdata)` (R141): the value is discarded; a push while pending changes nothing and is no error (R145). -/
def mailboxCommand (d : Mailbox) (_wdata : Word) (s : State) : Result := whenRunning s (done (raiseDoorbell s d))

/-- `MBOX.RD_ID(d)` (R142), the same while Idle (R146). -/
def mailboxIdentity (d : Mailbox) (s : State) : Result := whenRunning s (reply (lowerDoorbell s d) (idWord d))

/-- `MBOX.RD_STATUS(d)` (R143). -/
def mailboxStatus (d : Mailbox) (s : State) : Result := whenRunning s (reply s (statusWord (s.channel d).pending))

/-- A write to a read-only register is ignored and reported (40_register_device.md R128). -/
def writeReadOnly (d : Device) (off : Word) (s : State) : Result := whenRunning s (rejectWrite s ⟨d, .undef, off⟩)

/-- `MBOX.WR_CMD.POWER` (R141, R145). -/
def execMboxWrCmdPower (wdata : Word) (s : State) : Result := mailboxCommand .power wdata s

/-- `MBOX.RD_ID.POWER` (R142, R146). -/
def execMboxRdIdPower (s : State) : Result := mailboxIdentity .power s

/-- `MBOX.RD_STATUS.POWER` (R143). -/
def execMboxRdStatusPower (s : State) : Result := mailboxStatus .power s

/-- `MBOX.WR_STATUS.POWER` (R144). -/
def execMboxWrStatusPower (_wdata : Word) (s : State) : Result := writeReadOnly .power 0x04 s

/-- `MBOX.WR_CMD.VCHIQ` (R141, R145). -/
def execMboxWrCmdVchiq (wdata : Word) (s : State) : Result := mailboxCommand .vchiq wdata s

/-- `MBOX.RD_ID.VCHIQ` (R142, R146). -/
def execMboxRdIdVchiq (s : State) : Result := mailboxIdentity .vchiq s

/-- `MBOX.RD_STATUS.VCHIQ` (R143). -/
def execMboxRdStatusVchiq (s : State) : Result := mailboxStatus .vchiq s

/-- `MBOX.WR_STATUS.VCHIQ` (R144). -/
def execMboxWrStatusVchiq (_wdata : Word) (s : State) : Result := writeReadOnly .vchiq 0x04 s

end Sys2Proof.Machine
end

