-- ==== Sys2Proof/Machine/SystemTimer.lean ====
section
/-! DEFINITION. The system timer's registers and its two events (42_system_timer.md R164 to R173). -/

namespace Sys2Proof.Machine

/-- `ST.RD_CMPi(i)` (R169). -/
def readCompare (i : Fin 4) (s : State) : Result := whenRunning s (reply s (s.st.compare.get i))

/-- `ST.WR_CMPi(i, wdata)` (R170): only that channel's target changes, then `Reschedule()`. -/
def writeCompare (i : Fin 4) (wdata : Word) (s : State) : Result :=
  whenRunning s (done { s with st := s.st.setCompare i wdata })

/-- `ST.RD_MATCH` (R164). -/
def execStRdMatch (s : State) : Result := whenRunning s (reply s (matchWord s.st.matched))

/-- `ST.WR_MATCH` (R165): write 1 to clear, then `Reschedule()`. -/
def execStWrMatch (wdata : Word) (s : State) : Result :=
  whenRunning s (done { s with st := (s.st.acknowledge (ackMask wdata)).reschedule })

/-- `ST.RD_CNT_LO` (R166). -/
def execStRdCntLo (s : State) : Result := whenRunning s (reply s (low32 s.st.counter))

/-- `ST.RD_CNT_HI` (R167). -/
def execStRdCntHi (s : State) : Result := whenRunning s (reply s (high32 s.st.counter))

/-- `ST.WR_CNT_LO` (R168). -/
def execStWrCntLo (_wdata : Word) (s : State) : Result := writeReadOnly .st 0x04 s

/-- `ST.WR_CNT_HI` (R168). -/
def execStWrCntHi (_wdata : Word) (s : State) : Result := writeReadOnly .st 0x08 s

/-- `ST.RD_CMP0` (R169). -/
def execStRdCmp0 (s : State) : Result := readCompare 0 s

/-- `ST.RD_CMP1` (R169). -/
def execStRdCmp1 (s : State) : Result := readCompare 1 s

/-- `ST.RD_CMP2` (R169). -/
def execStRdCmp2 (s : State) : Result := readCompare 2 s

/-- `ST.RD_CMP3` (R169). -/
def execStRdCmp3 (s : State) : Result := readCompare 3 s

/-- `ST.WR_CMP0` (R170). -/
def execStWrCmp0 (wdata : Word) (s : State) : Result := writeCompare 0 wdata s

/-- `ST.WR_CMP1` (R170). -/
def execStWrCmp1 (wdata : Word) (s : State) : Result := writeCompare 1 wdata s

/-- `ST.WR_CMP2` (R170). -/
def execStWrCmp2 (wdata : Word) (s : State) : Result := writeCompare 2 wdata s

/-- `ST.WR_CMP3` (R170). -/
def execStWrCmp3 (wdata : Word) (s : State) : Result := writeCompare 3 wdata s

/-- `EV.ADVANCE` (R171): one count; not enabled while EV.TICK is (R173). -/
def execEvAdvance (s : State) : Result :=
  whenRunning s <|
    if s.st.tickDue then .refused .tickDueFirst
    else done { s with st := { s.st with counter := s.st.counter + 1 } }

/-- `EV.TICK` (R172): the wake-up is consumed, every eligible channel whose target is `next` fires, then
`Reschedule()`. -/
def execEvTick (s : State) : Result :=
  whenRunning s <|
    if s.st.tickDue then done { s with st := (Timer.fire { s.st with wake := none }).reschedule }
    else .refused .tickNotDue

end Sys2Proof.Machine
end

