-- ==== Sys2Proof/Machine/Framebuffer.lean ====
section
/-! DEFINITION. The framebuffer controller: the configuration protocol (43_framebuffer.md R190 to R200), its other
registers (R201, R202, R204) and the display refresh (R203). -/

namespace Sys2Proof.Machine

/-- Step 1 (R192): the seven request words of the descriptor at `a` are latched. -/
def latchRequest (s : State) (a : Word) : Framebuffer :=
  { s.fb with
    xres := memRead s (a + offXres)
    yres := memRead s (a + offYres)
    xresVirtual := memRead s (a + offXresVirtual)
    yresVirtual := memRead s (a + offYresVirtual)
    bpp := memRead s (a + offBpp)
    xoffset := memRead s (a + offXoffset)
    yoffset := memRead s (a + offYoffset) }

/-- Steps 3 and 4 (R194, R197) for a request that fits: pitch, size and the buffer's place. -/
def deriveGeometry (p : Params) (a : Word) (f : Framebuffer) : Framebuffer :=
  { f with
    pitch := BitVec.ofNat 32 (exactPitch f.xres)
    size := BitVec.ofNat 32 (exactSize f.xres f.yres)
    base := p.vramOrigin ||| (a &&& p.bankMask) }

/-- Step 5 (R198): three words written back, in that order. -/
def writeBack (s : State) (a : Word) : State :=
  memWrite (memWrite (memWrite s (a + offPitch) s.fb.pitch) (a + offBase) s.fb.base) (a + offSize) s.fb.size

/-- Step 6 (R199). -/
def present (f : Framebuffer) : Framebuffer :=
  { f with surface := ⟨f.xres, f.yres⟩, enabled := true, invalidate := true }

/-- Steps 5 to 7 for a request whose geometry is latched (R198 to R200): write back, present, raise the doorbell. -/
def completeRequest (a : Word) (s : State) : State :=
  raiseDoorbell { writeBack s a with fb := present s.fb, out := .resize s.fb.xres s.fb.yres } .fbctl

/-- Steps 4 to 7: a pixel buffer over a register window has no meaning (93 U9; log 16). -/
def placeBuffer (a : Word) (s : State) : Result :=
  if s.params.touchesSomeWindow s.fb.base s.fb.size.toNat then .refused .bufferOverWindow
  else .next (completeRequest a s)

/-- Steps 2 to 7 for a latched request: the depth is tested before the bound (R193, R195), and both with the request
already latched (R208). -/
def validateRequest (a : Word) (s : State) : Result :=
  if s.fb.bpp ≠ 16 then raiseFatal s (.bpp s.fb.bpp)
  else if geometryFits s.params.vramSize s.fb.xres s.fb.yres = false then raiseFatal s (.size s.fb.xres s.fb.yres)
  else placeBuffer a { s with fb := deriveGeometry s.params a s.fb }

/-- The configuration protocol for the descriptor at `a` (R190). A descriptor over a register window has no meaning
(R69, 93 U9; log 16). -/
def configure (a : Word) (s : State) : Result :=
  if s.params.touchesSomeWindow a descriptorBytes then .refused .descriptorOverWindow
  else validateRequest a { s with fb := latchRequest s a, draws := s.draws + 1 }

/-- `FB.WR_CMD` (R190): the guard (R191), then the protocol. -/
def execFbWrCmd (wdata : Word) (s : State) : Result :=
  whenRunning s <|
    if s.fbctl.pending then rejectWrite s ⟨.fbctl, .reentrant, 0x00⟩
    else configure (descriptorAddr wdata) s

/-- `FB.RD_ID` (R201). -/
def execFbRdId (s : State) : Result := mailboxIdentity .fbctl s

/-- `FB.RD_STATUS` (R202). -/
def execFbRdStatus (s : State) : Result := mailboxStatus .fbctl s

/-- `FB.WR_STATUS` (R204). -/
def execFbWrStatus (_wdata : Word) (s : State) : Result := writeReadOnly .fbctl 0x04 s

/-- The view a refresh exposes (R203). -/
def viewOf (f : Framebuffer) : View :=
  { addr := f.base, len := f.size, width := f.xres, height := f.yres, stride := f.xres * 2, full := f.invalidate }

/-- `EV.REFRESH(ok)` (R203). -/
def execEvRefresh (ok : Bool) (s : State) : Result :=
  whenRunning s <|
    if s.fb.enabled then
      .next { s with
        fb := { s.fb with invalidate := if ok then false else s.fb.invalidate }
        out := .view (viewOf s.fb) }
    else done s

end Sys2Proof.Machine
end

