-- ==== Sys2Proof/Machine/HostEvents.lean ====
section
/-! DEFINITION. The host's events: reset (70_reset_and_hazards.md R260, R261), save and restore
(44_host_operations.md R220, R221). -/

namespace Sys2Proof.Machine

/-- `EV.RESET` (R260, R261): enabled in every state, the halted one included. -/
def execEvReset (s : State) : Result := .next (resetWith s (Timer.initial s.params.t0).reschedule)

/-- The record of EV.SAVE (R220). -/
def saveRecord (t : Timer) : SaveRecord := ⟨t.compare, matchWord t.matched⟩

/-- `EV.SAVE` (R220): no state changes. -/
def execEvSave (s : State) : Result := whenRunning s (.next { s with out := .record (saveRecord s.st) })

/-- The timer of EV.RESTORE: reset values with the counter at `c`, then the record, lines that agree with the restored
mask, and `Reschedule()` (R221). -/
def restoreTimer (r : SaveRecord) (c : Count) : Timer :=
  Timer.reschedule { Timer.initial c with compare := r.compare, matched := r.mask, lines := linesOf r.mask }

/-- `EV.RESTORE(record, c)` (R221): enabled in any state that is not halted; a halted platform has no step but EV.RESET
(10_state.md R39, 92_eei_decisions.md D23; log 12). A record no EV.SAVE produced has no meaning (R223, 93 U19; log 15). -/
def execEvRestore (record : SaveRecord) (clock : Count) (s : State) : Result :=
  whenRunning s <|
    if record.wellFormed then .next (resetWith s (restoreTimer record clock)) else .refused .malformedRecord

end Sys2Proof.Machine
end

