-- ==== Sys2Proof/Machine/Dispatch.lean ====
section
/-! DEFINITION. The dispatch: one arm per row of the opcode table, each one call of the row's meaning. -/

namespace Sys2Proof.Machine

/-- The meaning of every row (30_encoding.md R94, R101). -/
def exec (i : Instr) (s : State) : Host.Outcome State Fault Refusal :=
  match i with
  | .mboxWrCmdPower wdata => Sys2Proof.Machine.execMboxWrCmdPower wdata s
  | .mboxRdIdPower => Sys2Proof.Machine.execMboxRdIdPower s
  | .mboxRdStatusPower => Sys2Proof.Machine.execMboxRdStatusPower s
  | .mboxWrStatusPower wdata => Sys2Proof.Machine.execMboxWrStatusPower wdata s
  | .mboxWrCmdVchiq wdata => Sys2Proof.Machine.execMboxWrCmdVchiq wdata s
  | .mboxRdIdVchiq => Sys2Proof.Machine.execMboxRdIdVchiq s
  | .mboxRdStatusVchiq => Sys2Proof.Machine.execMboxRdStatusVchiq s
  | .mboxWrStatusVchiq wdata => Sys2Proof.Machine.execMboxWrStatusVchiq wdata s
  | .fbWrCmd wdata => Sys2Proof.Machine.execFbWrCmd wdata s
  | .fbRdId => Sys2Proof.Machine.execFbRdId s
  | .fbRdStatus => Sys2Proof.Machine.execFbRdStatus s
  | .fbWrStatus wdata => Sys2Proof.Machine.execFbWrStatus wdata s
  | .stRdMatch => Sys2Proof.Machine.execStRdMatch s
  | .stWrMatch wdata => Sys2Proof.Machine.execStWrMatch wdata s
  | .stRdCntLo => Sys2Proof.Machine.execStRdCntLo s
  | .stRdCntHi => Sys2Proof.Machine.execStRdCntHi s
  | .stWrCntLo wdata => Sys2Proof.Machine.execStWrCntLo wdata s
  | .stWrCntHi wdata => Sys2Proof.Machine.execStWrCntHi wdata s
  | .stRdCmp0 => Sys2Proof.Machine.execStRdCmp0 s
  | .stRdCmp1 => Sys2Proof.Machine.execStRdCmp1 s
  | .stRdCmp2 => Sys2Proof.Machine.execStRdCmp2 s
  | .stRdCmp3 => Sys2Proof.Machine.execStRdCmp3 s
  | .stWrCmp0 wdata => Sys2Proof.Machine.execStWrCmp0 wdata s
  | .stWrCmp1 wdata => Sys2Proof.Machine.execStWrCmp1 wdata s
  | .stWrCmp2 wdata => Sys2Proof.Machine.execStWrCmp2 wdata s
  | .stWrCmp3 wdata => Sys2Proof.Machine.execStWrCmp3 wdata s
  | .evReset => Sys2Proof.Machine.execEvReset s
  | .evAdvance => Sys2Proof.Machine.execEvAdvance s
  | .evTick => Sys2Proof.Machine.execEvTick s
  | .evRefresh ok => Sys2Proof.Machine.execEvRefresh ok s
  | .evSave => Sys2Proof.Machine.execEvSave s
  | .evRestore record clock => Sys2Proof.Machine.execEvRestore record clock s

end Sys2Proof.Machine
end

