-- ==== Sys2Proof/Machine/Agents.lean ====
section
/-! DEFINITION. How the agents' actions reach the block: the rejection of a reserved transaction (40_register_device.md
R122 to R128), a packet, a guest store, the free run when nobody acts, and the two entry points `RegRead` and `RegWrite`
as the spec writes them (R122, R123), against which the decoder's way is stated. -/

namespace Sys2Proof.Machine

/-- The code of a transaction that reaches no register: range, then width and alignment, then lookup (R95, R132). -/
def rejectCode (p : Params) (a : Access) : GuestCode :=
  if p.window a.dev ≤ a.off.toNat then .range
  else if a.size ≠ 4 ∨ a.off.toNat % 4 ≠ 0 then .access
  else .undef

/-- A reserved transaction (30_encoding.md R102): a reported no-op whose read returns 0 (R124 to R127). -/
def runReserved (a : Access) (s : State) : Result :=
  whenRunning s <|
    if a.write then rejectWrite s ⟨a.dev, rejectCode s.params a, a.off⟩
    else rejectRead s ⟨a.dev, rejectCode s.params a, a.off⟩

/-- A decoded word. -/
def runDecoded (d : Decoded) (s : State) : Result :=
  match d with
  | .row i => exec i s
  | .reserved a => runReserved a s

/-- The refusal of a word that is no transaction of the block. -/
def refusalOf : DecodeError → Refusal
  | .noSuchDevice => .noSuchDevice
  | .noSuchEvent => .noSuchEvent
  | .malformedRecord => .malformedRecord

/-- The word asks for a count of time. -/
def isAdvance (d : Decoded) : Bool :=
  match d with
  | .row .evAdvance => true
  | _ => false

/-- A decoded packet at the head of the inbox, with `rest` behind it. When it asks for a count and a tick is due, the
tick is taken first and the packet stays (42_system_timer.md R173, 30_encoding.md R105; log 9). -/
def runHead (d : Decoded) (rest : List Stimulus) (s : State) : Result :=
  if isAdvance d && s.st.tickDue then exec .evTick s else runDecoded d { s with inbox := rest }

/-- A packet at the head of the inbox. -/
def runPacket (p : Packet) (rest : List Stimulus) (s : State) : Result :=
  match decode p with
  | .ok d => runHead d rest s
  | .error e => .refused (refusalOf e)

/-- A guest store to memory (20_memory.md R73; log 19); one that touches a register window is no store to memory
(93 U9). A halted platform's guest stores nothing (R129). -/
def runGuestStore (a : Word) (bytes : List Byte) (s : State) : Result :=
  whenRunning s <|
    if s.params.touchesSomeWindow a bytes.length then .refused .storeOverWindow
    else done (storeBytes s a bytes)

/-- Nobody but the clock and the wake-up acts: the due tick, or else one count (R173; log 8). -/
def freeRun (s : State) : Result := if s.st.tickDue then exec .evTick s else exec .evAdvance s

/-- One step: the next action in the inbox. Parameters that break R8, or put a window over guest RAM or VRAM (93 U9), are
refused (log 18, log 16). -/
def runNext (s : State) : Result :=
  if s.params.valid then
    match s.inbox with
    | [] => freeRun s
    | .packet p :: rest => runPacket p rest s
    | .guestStore a bytes :: rest => runGuestStore a bytes { s with inbox := rest }
  else .refused .badConfiguration

/-- The next action is the packet `p`, and what was there stays behind it. -/
def placePacket (p : Packet) (s : State) : State := { s with inbox := .packet p :: s.inbox }

/-- `RegRead(dev, off, size)` as R122 writes it. -/
def regRead (dev : Device) (off : Word) (size : BitVec 4) (s : State) : Result :=
  if s.halted then .fault .platformHalted
  else if s.params.window dev ≤ off.toNat then rejectRead s ⟨dev, .range, off⟩
  else if size ≠ 4 ∨ off.toNat % 4 ≠ 0 then rejectRead s ⟨dev, .access, off⟩
  else
    match dev, off.toNat with
    | .power, 0x00 => exec .mboxRdIdPower s
    | .vchiq, 0x00 => exec .mboxRdIdVchiq s
    | .power, 0x04 => exec .mboxRdStatusPower s
    | .vchiq, 0x04 => exec .mboxRdStatusVchiq s
    | .fbctl, 0x00 => exec .fbRdId s
    | .fbctl, 0x04 => exec .fbRdStatus s
    | .st, 0x00 => exec .stRdMatch s
    | .st, 0x04 => exec .stRdCntLo s
    | .st, 0x08 => exec .stRdCntHi s
    | .st, 0x0C => exec .stRdCmp0 s
    | .st, 0x10 => exec .stRdCmp1 s
    | .st, 0x14 => exec .stRdCmp2 s
    | .st, 0x18 => exec .stRdCmp3 s
    | _, _ => rejectRead s ⟨dev, .undef, off⟩

/-- `RegWrite(dev, off, size, wdata)` as R123 writes it. -/
def regWrite (dev : Device) (off : Word) (size : BitVec 4) (wdata : Word) (s : State) : Result :=
  if s.halted then .fault .platformHalted
  else if s.params.window dev ≤ off.toNat then rejectWrite s ⟨dev, .range, off⟩
  else if size ≠ 4 ∨ off.toNat % 4 ≠ 0 then rejectWrite s ⟨dev, .access, off⟩
  else
    match dev, off.toNat with
    | .power, 0x00 => exec (.mboxWrCmdPower wdata) s
    | .vchiq, 0x00 => exec (.mboxWrCmdVchiq wdata) s
    | .fbctl, 0x00 => exec (.fbWrCmd wdata) s
    | .st, 0x00 => exec (.stWrMatch wdata) s
    | .st, 0x0C => exec (.stWrCmp0 wdata) s
    | .st, 0x10 => exec (.stWrCmp1 wdata) s
    | .st, 0x14 => exec (.stWrCmp2 wdata) s
    | .st, 0x18 => exec (.stWrCmp3 wdata) s
    | _, _ => rejectWrite s ⟨dev, .undef, off⟩

end Sys2Proof.Machine
end

