-- ==== Sys2Proof/Machine/Step.lean ====
section
/-! DEFINITION. One step of the machine: the next action of the agents (20_memory.md R71, R72). -/

namespace Sys2Proof.Machine

/-- One step. -/
def step (s : State) : Host.Outcome State Fault Refusal := runNext s

/-- `s` with the transaction word `w` at the head of the inbox, from which the next step takes it; every operand line
is zero (log 7). -/
def State.withFetchWord (s : State) (_nbits w : Nat) : State := placePacket (tablePacket w) s

end Sys2Proof.Machine
end

