-- ==== Sys2Proof/Laws/Encoding.lean ====
section
/-! SUPPORT. The fields of a packed transaction word are the fields it was packed from, and a word is packed from its
fields (30_encoding.md R91). -/

namespace Sys2Proof

theorem getLsbD_packTW (d : BitVec 3) (w : BitVec 1) (z : BitVec 4) (o : Word) (i : Nat) :
    (packTW d w z o).getLsbD i =
      if i < 32 then o.getLsbD i else if i < 36 then z.getLsbD (i - 32)
      else if i < 37 then w.getLsbD (i - 36) else d.getLsbD (i - 37) := by
  show BitVec.getLsbD (w := 3 + 1 + 4 + 32) (d ++ w ++ z ++ o) i = _
  rw [BitVec.getLsbD_append, BitVec.getLsbD_append, BitVec.getLsbD_append]
  grind

@[simp] theorem twDev_packTW (d : BitVec 3) (w : BitVec 1) (z : BitVec 4) (o : Word) : twDev (packTW d w z o) = d := by
  apply BitVec.eq_of_getLsbD_eq
  intro i hi
  simp only [twDev, BitVec.getLsbD_extractLsb', getLsbD_packTW]
  grind

@[simp] theorem twSize_packTW (d : BitVec 3) (w : BitVec 1) (z : BitVec 4) (o : Word) : twSize (packTW d w z o) = z := by
  apply BitVec.eq_of_getLsbD_eq
  intro i hi
  simp only [twSize, BitVec.getLsbD_extractLsb', getLsbD_packTW]
  grind

@[simp] theorem twOff_packTW (d : BitVec 3) (w : BitVec 1) (z : BitVec 4) (o : Word) : twOff (packTW d w z o) = o := by
  apply BitVec.eq_of_getLsbD_eq
  intro i hi
  simp only [twOff, BitVec.getLsbD_extractLsb', getLsbD_packTW]
  grind

@[simp] theorem twWrite_packTW (d : BitVec 3) (w : BitVec 1) (z : BitVec 4) (o : Word) :
    twWrite (packTW d w z o) = w.getLsbD 0 := by
  rw [twWrite, getLsbD_packTW]
  rfl

/-- A transaction word is its four fields, put together. -/
theorem packTW_fields (tw : BitVec 40) :
    packTW (twDev tw) (BitVec.ofBool (twWrite tw)) (twSize tw) (twOff tw) = tw := by
  apply BitVec.eq_of_getLsbD_eq
  intro i hi
  rw [getLsbD_packTW]
  simp only [twDev, twWrite, twSize, twOff, BitVec.getLsbD_extractLsb']
  rcases Nat.lt_trichotomy i 36 with h | h | h
  · grind
  · subst h; simp
  · grind

theorem twDev_lt (tw : BitVec 40) : (twDev tw).toNat < 8 := (twDev tw).isLt

/-- A bus transaction's word reaches the decode layer as the access it was made from. -/
theorem decode_accessPacket (a : Access) (wdata : Word) :
    decode (accessPacket a wdata) = .ok (decodeAccess a wdata) := by
  obtain ⟨d, w, z, o⟩ := a
  cases d <;> cases w <;> simp [decode, accessPacket, Device.code, deviceOf, Operands.zero]

end Sys2Proof
end

