-- ==== Sys2Proof/Safety.lean ====
section
/-! DEFINITION. What counts as a safe state, the invariants the spec states of every state between steps (10_state.md
R32, R33, R38), and the conditions on a pushed descriptor, in the terms the claims use. -/

namespace Sys2Proof.Machine

/-- "A halted state is never a good final state" (R39, 60_exceptions.md R235). -/
def SafeState (s : State) : Prop := s.halted = false

/-- R33: every line agrees with the flag it mirrors. -/
def LinesFollowFlags (s : State) : Prop :=
  (∀ d, (s.channel d).line = (s.channel d).pending) ∧ ∀ i, s.st.lines.get i = s.st.isMatched i

/-- R32 with R180(b): while a channel is eligible the one wake-up is armed for the nearest target; with all four matched
nothing is armed. -/
def TimerArmed (t : Timer) : Prop :=
  (t.matched ≠ 0xF → ∃ d k, t.wake = some d ∧ low32 d = t.next ∧ t.eligible k = true ∧ t.next = t.compare.get k ∧
    (∀ i, t.eligible i = true → (t.delta k).toNat ≤ (t.delta i).toNat) ∧
    d - t.counter = (t.next - low32 t.counter).zeroExtend 64) ∧
  (t.matched = 0xF → t.wake = none)

/-- R38, on the un-banked address (90_conflicts.md C3). DESIGN CHOICE (log 27): the strict upper bound is asked of a VRAM
region that is not empty; in an empty one a push of size 0 is accepted (R195, D28) and no address meets it. -/
def BufferPlaced (s : State) : Prop :=
  s.fb.enabled = true →
    s.params.unbank s.fb.base = s.params.vramOrigin ∧
    (0 < s.params.vramSize →
      (s.params.unbank s.fb.base).toNat < s.params.vramOrigin.toNat + s.params.vramSize)

/-- R194 and R195 of every state a running platform is in once a push was accepted. -/
def GeometryExact (s : State) : Prop :=
  s.halted = false → s.fb.enabled = true →
    s.fb.bpp = 16 ∧ s.fb.pitch.toNat = 2 * s.fb.xres.toNat ∧
    s.fb.size.toNat = 2 * s.fb.xres.toNat * s.fb.yres.toNat ∧ s.fb.size.toNat ≤ s.params.vramSize ∧
    s.fb.surface = ⟨s.fb.xres, s.fb.yres⟩

/-- The invariant of the machine: what the spec says of every state between steps, and that memory is canonical. -/
def Inv (s : State) : Prop :=
  LinesFollowFlags s ∧ TimerArmed s.st ∧ BufferPlaced s ∧ GeometryExact s ∧ s.mem.wf = true

/-- The descriptor at `a` has a meaning and asks for a mode the block accepts: depth 16, a geometry within the bound
(43_framebuffer.md R193, R195), and neither it nor the buffer over a register window (93 U9). -/
def PushAccepted (s : State) (a : Word) : Prop :=
  s.params.touchesSomeWindow a descriptorBytes = false ∧
  memRead s (a + offBpp) = 16 ∧
  geometryFits s.params.vramSize (memRead s (a + offXres)) (memRead s (a + offYres)) = true ∧
  s.params.touchesSomeWindow (s.params.vramOrigin ||| (a &&& s.params.bankMask))
    (exactSize (memRead s (a + offXres)) (memRead s (a + offYres))) = false

/-- The four bytes at `a` are guest RAM. -/
def wordIsRam (p : Params) (a : Word) : Bool := p.isRam a && p.isRam (a + 1) && p.isRam (a + 2) && p.isRam (a + 3)

/-- `b` names the same byte of memory as one of the four bytes at `a` (20_memory.md R76). -/
def inWord (p : Params) (a b : Word) : Bool :=
  decide (p.unbank b = p.unbank a) || decide (p.unbank b = p.unbank (a + 1)) ||
  decide (p.unbank b = p.unbank (a + 2)) || decide (p.unbank b = p.unbank (a + 3))

/-- No bank-select bit among the low six address bits, so that two bytes of one descriptor are never one byte. -/
def banksAreHigh (p : Params) : Bool := decide (p.bankMask &&& 0x3F = 0)

end Sys2Proof.Machine
end

