-- ==== Sys2Proof/Laws/State.lean ====
section
/-! SUPPORT. The small lemmas of State: one per field per update, and what the outcome operations answer. -/

namespace Sys2Proof.Machine

/-! ### Four like things -/

@[simp] theorem Quad_get_set_self {α : Type} (q : Quad α) (i : Fin 4) (v : α) : (q.set i v).get i = v := by
  match i with
  | 0 | 1 | 2 | 3 => rfl

theorem Quad_get_set_of_ne {α : Type} (q : Quad α) (i j : Fin 4) (v : α) (h : i ≠ j) : (q.set i v).get j = q.get j := by
  match i, j with
  | 0, 0 | 1, 1 | 2, 2 | 3, 3 => exact absurd rfl h
  | 0, 1 | 0, 2 | 0, 3 | 1, 0 | 1, 2 | 1, 3 | 2, 0 | 2, 1 | 2, 3 | 3, 0 | 3, 1 | 3, 2 => rfl

theorem Quad_get_set {α : Type} (q : Quad α) (i j : Fin 4) (v : α) :
    (q.set i v).get j = if i = j then v else q.get j := by
  by_cases h : i = j
  · subst h; simp
  · simp [Quad_get_set_of_ne _ _ _ _ h, h]

@[simp] theorem Quad_get_const {α : Type} (v : α) (i : Fin 4) : (Quad.const v).get i = v := by
  match i with
  | 0 | 1 | 2 | 3 => rfl

/-! ### Channels -/

@[simp] theorem Channel_raise (c : Channel) : c.raise = ⟨true, true⟩ := rfl
@[simp] theorem Channel_lower (c : Channel) : c.lower = ⟨false, false⟩ := rfl

section setChannel
variable (s : State) (d e : Mailbox) (c : Channel)

@[simp] theorem setChannel_params : (s.setChannel d c).params = s.params := by cases d <;> rfl
@[simp] theorem setChannel_st : (s.setChannel d c).st = s.st := by cases d <;> rfl
@[simp] theorem setChannel_fb : (s.setChannel d c).fb = s.fb := by cases d <;> rfl
@[simp] theorem setChannel_halted : (s.setChannel d c).halted = s.halted := by cases d <;> rfl
@[simp] theorem setChannel_gerr : (s.setChannel d c).gerr = s.gerr := by cases d <;> rfl
@[simp] theorem setChannel_mem : (s.setChannel d c).mem = s.mem := by cases d <;> rfl
@[simp] theorem setChannel_draws : (s.setChannel d c).draws = s.draws := by cases d <;> rfl
@[simp] theorem setChannel_inbox : (s.setChannel d c).inbox = s.inbox := by cases d <;> rfl
@[simp] theorem setChannel_out : (s.setChannel d c).out = s.out := by cases d <;> rfl
@[simp] theorem channel_setChannel_self : (s.setChannel d c).channel d = c := by cases d <;> rfl

theorem channel_setChannel_of_ne (h : d ≠ e) : (s.setChannel d c).channel e = s.channel e := by
  cases d <;> cases e <;> first | rfl | exact absurd rfl h

end setChannel

/-! ### Reset -/

section resetWith
variable (s : State) (t : Timer)

@[simp] theorem resetWith_params : (resetWith s t).params = s.params := rfl
@[simp] theorem resetWith_st : (resetWith s t).st = t := rfl
@[simp] theorem resetWith_fb : (resetWith s t).fb = .zero := rfl
@[simp] theorem resetWith_halted : (resetWith s t).halted = false := rfl
@[simp] theorem resetWith_gerr : (resetWith s t).gerr = [] := rfl
@[simp] theorem resetWith_mem : (resetWith s t).mem = s.mem := rfl
@[simp] theorem resetWith_draws : (resetWith s t).draws = s.draws := rfl
@[simp] theorem resetWith_inbox : (resetWith s t).inbox = s.inbox := rfl
@[simp] theorem resetWith_out : (resetWith s t).out = .none := rfl
@[simp] theorem resetWith_channel (d : Mailbox) : (resetWith s t).channel d = .idle := by cases d <;> rfl

end resetWith

/-! ### Outcomes -/

theorem whenRunning_of_running {s : State} (h : s.halted = false) (r : Result) : whenRunning s r = r := by
  simp [whenRunning, h]

theorem whenRunning_of_halted {s : State} (h : s.halted = true) (r : Result) :
    whenRunning s r = .fault .platformHalted := by
  simp [whenRunning, h]

/-- A gated step answers a next state exactly when the platform runs and the step answers it. -/
theorem whenRunning_eq_next {s t : State} {r : Result} :
    whenRunning s r = .next t ↔ s.halted = false ∧ r = .next t := by
  cases h : s.halted <;> simp [whenRunning, h]

@[simp] theorem done_eq_next {s t : State} : done s = .next t ↔ t = { s with out := .none } := by
  simp [done, eq_comm]

@[simp] theorem reply_eq_next {s t : State} {v : Word} : reply s v = .next t ↔ t = { s with out := .rdata v } := by
  simp [reply, eq_comm]

@[simp] theorem rejectWrite_eq_next {s t : State} {e : GuestError} :
    rejectWrite s e = .next t ↔ t = { s with gerr := s.gerr ++ [e], out := .none } := by
  simp [rejectWrite]

@[simp] theorem rejectRead_eq_next {s t : State} {e : GuestError} :
    rejectRead s e = .next t ↔ t = { s with gerr := s.gerr ++ [e], out := .rdata 0 } := by
  simp [rejectRead]

@[simp] theorem raiseFatal_eq_next {s t : State} {e : FatalError} :
    raiseFatal s e = .next t ↔ t = { s with halted := true, out := .fatal e } := by
  simp [raiseFatal, eq_comm]

end Sys2Proof.Machine
end

