-- ==== Sys2Proof/Laws/Decode.lean ====
section
/-! SUPPORT. What the decoder's tables say of a word and of an offset (30_encoding.md R91, R92, R101), and how a bus
transaction at the head of the inbox reaches the block. -/

namespace Sys2Proof

theorem deviceOf_eq_some {n : BitVec 3} {d : Device} (h : deviceOf n.toNat = some d) : n = d.code := by
  cases d <;> revert n <;> decide

theorem deviceOf_eq_none {n : BitVec 3} (h : deviceOf n.toNat = none) (d : Device) : n ≠ d.code := by
  cases d <;> revert n <;> decide

/-- A word with these four fields is this word. -/
theorem tw_of_fields {tw : BitVec 40} {d : BitVec 3} {w : Bool} {z : BitVec 4} {n : Nat} (hd : twDev tw = d)
    (hw : twWrite tw = w) (hz : twSize tw = z) (hn : (twOff tw).toNat = n) :
    tw = packTW d (BitVec.ofBool w) z (BitVec.ofNat 32 n) := by
  rw [← packTW_fields tw, hd, hw, hz, ← hn, BitVec.ofNat_toNat, BitVec.setWidth_eq]

/-- The row at a read offset has the word made of that device, direction, width and offset. -/
theorem readRow_word {d : Device} {n : Nat} {i : Instr} (h : readRow d n = some i) :
    i.wellFormed = true ∧ (encode i).tw = packTW d.code 0 4 (BitVec.ofNat 32 n) := by
  unfold readRow at h
  split at h <;> cases h <;> exact ⟨rfl, rfl⟩

theorem writeRow_word {d : Device} {n : Nat} {w : Word} {i : Instr} (h : writeRow d n w = some i) :
    i.wellFormed = true ∧ (encode i).tw = packTW d.code 1 4 (BitVec.ofNat 32 n) := by
  unfold writeRow at h
  split at h <;> cases h <;> exact ⟨rfl, rfl⟩

/-- Every register lies at an aligned offset below 0x08 (mailbox devices) or 0x1C (timer). -/
theorem readRow_offset {d : Device} {n : Nat} {i : Instr} (h : readRow d n = some i) :
    n < (if d = .st then 0x1C else 0x08) ∧ n % 4 = 0 := by
  unfold readRow at h
  split at h <;> cases h <;> exact ⟨by decide, by decide⟩

theorem writeRow_offset {d : Device} {n : Nat} {w : Word} {i : Instr} (h : writeRow d n w = some i) :
    n < (if d = .st then 0x1C else 0x08) ∧ n % 4 = 0 := by
  unfold writeRow at h
  split at h <;> cases h <;> exact ⟨by decide, by decide⟩

/-- Every register lies inside its device's window (00_scope.md R8). -/
theorem register_in_window {p : Params} (h : p.valid = true) {d : Device} {n : Nat}
    (hn : n < if d = .st then 0x1C else 0x08) : n < p.window d := by
  simp only [Params.valid, Bool.and_eq_true, decide_eq_true_eq] at h
  cases d <;> simp [Params.window] at hn ⊢ <;> omega

/-- No address of a register window holds guest RAM or lies in VRAM (93_implementation_defined.md U9). -/
theorem window_address_clear {p : Params} (h : p.valid = true) {d : Device} {k : Nat} (hk : k < p.window d) :
    p.isRam (p.baseOf d + BitVec.ofNat 32 k) = false ∧ p.isVram (p.baseOf d + BitVec.ofNat 32 k) = false := by
  have hd : p.windowClear d = true := by
    simp only [Params.valid, Params.windowsClear, Bool.and_eq_true] at h
    cases d <;> simp only [h]
  simp only [Params.windowClear, List.all_eq_true, List.mem_range, Bool.and_eq_true, Bool.not_eq_true'] at hd
  exact hd k hk

/-- A register transaction never asks for a count of time. -/
theorem Machine.isAdvance_decodeAccess (a : Access) (wdata : Word) :
    Machine.isAdvance (decodeAccess a wdata) = false := by
  unfold decodeAccess accessRow
  split
  · rename_i i hi
    split at hi
    · split at hi
      · unfold writeRow at hi; split at hi <;> cases hi <;> rfl
      · unfold readRow at hi; split at hi <;> cases hi <;> rfl
    · cases hi
  · rfl

/-- A bus transaction at the head of the inbox runs as it decodes, and is consumed. -/
theorem Machine.step_accessPacket {s : Machine.State} {a : Access} {wdata : Word} {rest : List Machine.Stimulus}
    (hv : s.params.valid = true) (hi : s.inbox = .packet (accessPacket a wdata) :: rest) :
    Machine.step s = Machine.runDecoded (decodeAccess a wdata) { s with inbox := rest } := by
  simp only [Machine.step, Machine.runNext, hv, if_true, hi, Machine.runPacket, decode_accessPacket, Machine.runHead,
    Machine.isAdvance_decodeAccess, Bool.false_and, Bool.false_eq_true, if_false]

end Sys2Proof
end

