-- ==== Sys2Proof/Laws/Memory.lean ====
section
/-! SUPPORT. Guest memory: a write reads back and leaves every other byte alone, every operation keeps the canonical
form, and a write to memory changes nothing but memory. -/

namespace Sys2Proof.Machine

/-! ### The list of cells -/

theorem Memory_lookup_cons (a : Nat) (b : Byte) (m : Memory) (k : Nat) (hm : Memory.lookup m a = unlistedByte) :
    (Memory.cons a b m).lookup k = if k = a then b else m.lookup k := by
  by_cases hb : b = unlistedByte
  · by_cases hk : k = a <;> simp [Memory.cons, hb, hk, hm]
  · by_cases hk : a = k
    · simp [Memory.cons, hb, Memory.lookup, hk]
    · simp [Memory.cons, hb, Memory.lookup, hk, Ne.symm hk]

/-- A key below every listed one is not listed. -/
theorem Memory_lookup_of_below (m : Memory) (a : Nat) (h : m.all (fun e => decide (a < e.1)) = true) :
    m.lookup a = unlistedByte := by
  induction m with
  | nil => rfl
  | cons c m ih =>
    simp only [List.all_cons, Bool.and_eq_true, decide_eq_true_eq] at h
    simp [Memory.lookup, Nat.ne_of_gt h.1, ih h.2]

theorem Memory_all_below_trans {m : Memory} {a b : Nat} (hab : a < b)
    (h : m.all (fun e => decide (b < e.1)) = true) : m.all (fun e => decide (a < e.1)) = true := by
  simp only [List.all_eq_true, decide_eq_true_eq] at h ⊢
  intro e he
  exact Nat.lt_trans hab (h e he)

theorem Memory_wf_cons {c : Host.Cell} {m : Memory} :
    Memory.wf (c :: m) = true ↔
      c.2 ≠ unlistedByte ∧ m.all (fun e => decide (c.1 < e.1)) = true ∧ Memory.wf m = true := by
  simp only [Memory.wf, Bool.and_eq_true, decide_eq_true_eq, and_assoc]

/-- Reading a key after a store at another key, or at the same one. -/
theorem Memory_lookup_store (m : Memory) (hwf : m.wf = true) (a k : Nat) (b : Byte) :
    (m.store a b).lookup k = if k = a then b else m.lookup k := by
  induction m with
  | nil => exact Memory_lookup_cons a b [] k rfl
  | cons c m ih =>
    obtain ⟨-, hc, hm⟩ := Memory_wf_cons.mp hwf
    unfold Memory.store
    split
    · rename_i hlt
      refine Memory_lookup_cons a b (c :: m) k (Memory_lookup_of_below _ _ ?_)
      simp [hlt, Memory_all_below_trans hlt hc]
    · split
      · rename_i _ heq
        subst heq
        rw [Memory_lookup_cons _ _ _ _ (Memory_lookup_of_below _ _ hc)]
        by_cases hk : k = c.1
        · simp [hk]
        · simp [hk, Memory.lookup, Ne.symm hk]
      · rename_i h1 h2
        by_cases hk : c.1 = k
        · have : k ≠ a := by omega
          simp [Memory.lookup, hk, this]
        · simp [Memory.lookup, hk, ih hm]

theorem Memory_cons_all (a : Nat) (b : Byte) (m : Memory) (k : Nat) (hk : k < a)
    (hm : m.all (fun e => decide (k < e.1)) = true) :
    (Memory.cons a b m).all (fun e => decide (k < e.1)) = true := by
  unfold Memory.cons
  split
  · exact hm
  · simp [hk, hm]

theorem Memory_store_all (m : Memory) (a k : Nat) (b : Byte) (hk : k < a)
    (hm : m.all (fun e => decide (k < e.1)) = true) :
    (m.store a b).all (fun e => decide (k < e.1)) = true := by
  induction m with
  | nil => exact Memory_cons_all a b [] k hk hm
  | cons c m ih =>
    have hm' := hm
    simp only [List.all_cons, Bool.and_eq_true, decide_eq_true_eq] at hm
    unfold Memory.store
    split
    · exact Memory_cons_all a b _ k hk hm'
    · split
      · exact Memory_cons_all a b _ k hk hm.2
      · simp [hm.1, ih hm.2]

theorem Memory_cons_wf (a : Nat) (b : Byte) (m : Memory) (hm : m.wf = true)
    (h : m.all (fun e => decide (a < e.1)) = true) : (Memory.cons a b m).wf = true := by
  unfold Memory.cons
  split
  · exact hm
  · rename_i hb; exact Memory_wf_cons.mpr ⟨hb, h, hm⟩

/-- A store keeps the canonical form. -/
theorem Memory_store_wf (m : Memory) (hwf : m.wf = true) (a : Nat) (b : Byte) : (m.store a b).wf = true := by
  induction m with
  | nil => exact Memory_cons_wf a b [] rfl rfl
  | cons c m ih =>
    obtain ⟨hb, hc, hm⟩ := Memory_wf_cons.mp hwf
    unfold Memory.store
    split
    · rename_i hlt
      refine Memory_cons_wf a b _ hwf ?_
      simp [hlt, Memory_all_below_trans hlt hc]
    · split
      · rename_i heq; subst heq; exact Memory_cons_wf c.1 b m hm hc
      · rename_i h1 h2
        exact Memory_wf_cons.mpr ⟨hb, Memory_store_all m a c.1 b (by omega) hc, ih hm⟩

/-! ### Bytes of guest memory -/

theorem isRam_of_unbank_eq {p : Params} {a b : Word} (h : p.unbank a = p.unbank b) : p.isRam a = p.isRam b := by
  simp [Params.isRam, h]

theorem putByte_wf (m : Memory) (h : m.wf = true) (p : Params) (a : Word) (b : Byte) : (m.putByte p a b).wf = true := by
  unfold Memory.putByte; split
  · exact Memory_store_wf _ h _ _
  · exact h

/-- What a byte of RAM reads as after one byte was written: `b` under every alias of `a`, else what it was. -/
theorem ramByte_putByte (m : Memory) (h : m.wf = true) (p : Params) (a k : Word) (b : Byte) :
    (m.putByte p a b).ramByte p k =
      if p.isRam k = true ∧ p.unbank k = p.unbank a then some b else m.ramByte p k := by
  unfold Memory.ramByte
  by_cases hk : p.isRam k = true
  · by_cases ha : p.isRam a = true
    · simp only [hk, Memory.putByte, ha, if_true, true_and, Memory_lookup_store _ h]
      by_cases e : p.unbank k = p.unbank a
      · simp [e]
      · have : (p.unbank k).toNat ≠ (p.unbank a).toNat := fun h => e (BitVec.eq_of_toNat_eq h)
        simp [e, this]
    · have : p.unbank k ≠ p.unbank a := fun e => ha (isRam_of_unbank_eq e ▸ hk)
      simp [hk, Memory.putByte, ha, this]
  · simp [hk]

theorem putWord_wf (m : Memory) (h : m.wf = true) (p : Params) (a v : Word) : (m.putWord p a v).wf = true :=
  putByte_wf _ (putByte_wf _ (putByte_wf _ (putByte_wf _ h _ _ _) _ _ _) _ _ _) _ _ _

/-- A word written leaves every byte outside its four bytes, under every alias, alone. -/
theorem ramByte_putWord_of_outside (m : Memory) (h : m.wf = true) (p : Params) (a v k : Word)
    (hk : inWord p a k = false) : (m.putWord p a v).ramByte p k = m.ramByte p k := by
  simp only [inWord, Bool.or_eq_false_iff, decide_eq_false_iff_not] at hk
  have w1 := putByte_wf m h p a (byteOf v 0)
  have w2 := putByte_wf _ w1 p (a + 1) (byteOf v 1)
  have w3 := putByte_wf _ w2 p (a + 2) (byteOf v 2)
  obtain ⟨⟨⟨h0, h1⟩, h2⟩, h3⟩ := hk
  rw [Memory.putWord, ramByte_putByte _ w3, ramByte_putByte _ w2, ramByte_putByte _ w1, ramByte_putByte _ h]
  simp only [h0, h1, h2, h3, and_false, if_false]

theorem putBytes_wf (m : Memory) (h : m.wf = true) (p : Params) (a : Word) (bs : List Byte) :
    (m.putBytes p a bs).wf = true := by
  induction bs generalizing m a with
  | nil => exact h
  | cons b bs ih => exact ih _ (putByte_wf m h p a b) _

/-! ### What stays apart under the banks -/

/-- With no bank-select bit among the low six, two addresses that differ there are two bytes. -/
theorem unbank_ne_of_low_six (p : Params) (h : banksAreHigh p = true) (a b : Word)
    (hab : a &&& 0x3F ≠ b &&& 0x3F) : p.unbank a ≠ p.unbank b := by
  intro e
  apply hab
  simp only [banksAreHigh, decide_eq_true_eq] at h
  apply BitVec.eq_of_getLsbD_eq
  intro i hi
  have h1 : (p.bankMask &&& 0x3F).getLsbD i = false := by rw [h]; simp
  have h2 : (p.unbank a).getLsbD i = (p.unbank b).getLsbD i := by rw [e]
  simp only [Params.unbank, BitVec.getLsbD_and, BitVec.getLsbD_not, hi] at h1 h2 ⊢
  revert h1 h2
  cases a.getLsbD i <;> cases b.getLsbD i <;> cases p.bankMask.getLsbD i <;> cases (0x3F : BitVec 32).getLsbD i <;> simp

/-- Two offsets below 64 from one address differ in the low six bits. -/
theorem low_six_ne (a j k : Word) (hj : j.toNat < 64) (hk : k.toNat < 64) (h : j ≠ k) :
    (a + j) &&& 0x3F ≠ (a + k) &&& 0x3F := by
  intro e
  apply h
  apply BitVec.eq_of_toNat_eq
  have e' := congrArg BitVec.toNat e
  simp only [BitVec.toNat_and, BitVec.toNat_add] at e'
  rw [show (0x3F : BitVec 32).toNat = 2 ^ 6 - 1 by decide, Nat.and_two_pow_sub_one_eq_mod,
    Nat.and_two_pow_sub_one_eq_mod] at e'
  omega

/-- Two bytes at different offsets below 64 from one address are two bytes under any banks. -/
theorem unbank_offsets_ne (p : Params) (h : banksAreHigh p = true) (a j k : Word) (hj : j.toNat < 64) (hk : k.toNat < 64)
    (hjk : j ≠ k) : p.unbank (a + j) ≠ p.unbank (a + k) :=
  unbank_ne_of_low_six p h _ _ (low_six_ne a j k hj hk hjk)

/-- The four bytes of a word, put together. -/
theorem bytes_of_word (v : Word) : byteOf v 3 ++ byteOf v 2 ++ byteOf v 1 ++ byteOf v 0 = v := by
  apply BitVec.eq_of_getLsbD_eq
  intro i hi
  simp only [byteOf]
  rw [BitVec.getLsbD_append, BitVec.getLsbD_append, BitVec.getLsbD_append]
  simp only [BitVec.getLsbD_extractLsb']
  grind

/-- A read of RAM takes no draw. -/
theorem readByte_of_peek {s : State} {a : Word} {b : Byte} (h : peek s a = some b) : readByte s a = b := by
  simp [readByte, h]

end Sys2Proof.Machine
end

