-- ==== Sys2Proof/Laws/Push.lean ====
section
/-! SUPPORT. Everything a push to FBCTL can do when it answers a next state (43_framebuffer.md R190, R191, R208), and the
arithmetic of an accepted geometry (R194 to R196). -/

namespace Sys2Proof.Machine

/-- The state a fatal push leaves: the request latched, the platform halted (R208). -/
def fatalPush (s : State) (a : Word) (e : FatalError) : State :=
  { s with fb := latchRequest s a, draws := s.draws + 1, halted := true, out := .fatal e }

/-- The state an accepted push leaves (R194 to R200). -/
def acceptedPush (s : State) (a : Word) : State :=
  completeRequest a { s with fb := deriveGeometry s.params a (latchRequest s a), draws := s.draws + 1 }

/-- A push that answers a next state was dropped, or fatal, or accepted. -/
theorem push_cases {w : Word} {s t : State} (h : exec (.fbWrCmd w) s = .next t) :
    s.halted = false ∧
      ((s.fbctl.pending = true ∧ t = { s with gerr := s.gerr ++ [⟨.fbctl, .reentrant, 0x00⟩], out := .none }) ∨
        (s.fbctl.pending = false ∧ ∃ e, t = fatalPush s (descriptorAddr w) e) ∨
        (s.fbctl.pending = false ∧ (latchRequest s (descriptorAddr w)).bpp = 16 ∧
          geometryFits s.params.vramSize (latchRequest s (descriptorAddr w)).xres
            (latchRequest s (descriptorAddr w)).yres = true ∧
          t = acceptedPush s (descriptorAddr w))) := by
  simp only [exec, execFbWrCmd, whenRunning_eq_next] at h
  refine ⟨h.1, ?_⟩
  obtain ⟨-, h⟩ := h
  split at h
  · rename_i hp
    exact .inl ⟨hp, by simpa using h⟩
  · rename_i hp
    have hp : s.fbctl.pending = false := by simpa using hp
    unfold configure at h
    split at h
    · cases h
    · unfold validateRequest at h
      split at h
      · exact .inr (.inl ⟨hp, _, raiseFatal_eq_next.mp h⟩)
      · rename_i hb
        split at h
        · exact .inr (.inl ⟨hp, _, raiseFatal_eq_next.mp h⟩)
        · rename_i hg
          unfold placeBuffer at h
          split at h
          · cases h
          · refine .inr (.inr ⟨hp, by simpa using hb, by simpa using hg, ?_⟩)
            simp only [Host.Outcome.next.injEq] at h
            exact h.symm

/-- What fits is written back exactly (R196). -/
theorem geometry_exact {n : Nat} {x y : Word} (h : geometryFits n x y = true) :
    (BitVec.ofNat 32 (exactPitch x)).toNat = exactPitch x ∧
      (BitVec.ofNat 32 (exactSize x y)).toNat = exactSize x y ∧ exactSize x y ≤ n := by
  simp only [geometryFits, Bool.and_eq_true, decide_eq_true_eq] at h
  refine ⟨?_, ?_, h.2⟩ <;> rw [BitVec.toNat_ofNat] <;> apply Nat.mod_eq_of_lt <;> omega

/-- A push whose descriptor meets `PushAccepted` is accepted. -/
theorem configure_accepted {s : State} {a : Word} (h : PushAccepted s a) : configure a s = .next (acceptedPush s a) := by
  obtain ⟨h1, h2, h3, h4⟩ := h
  have hb : ¬ (latchRequest s a).bpp ≠ 16 := fun e => e h2
  have hg : ¬ geometryFits s.params.vramSize (latchRequest s a).xres (latchRequest s a).yres = false := by
    simp only [latchRequest]; rw [h3]; exact Bool.noConfusion
  have hw : s.params.touchesSomeWindow (deriveGeometry s.params a (latchRequest s a)).base
      (deriveGeometry s.params a (latchRequest s a)).size.toNat = false := by
    simp only [deriveGeometry, latchRequest]; rw [(geometry_exact h3).2.1]; exact h4
  simp only [configure, h1, Bool.false_eq_true, if_false, validateRequest]
  rw [if_neg hb, if_neg hg]
  simp only [placeBuffer, hw, Bool.false_eq_true, if_false]
  rfl

/-- A word of guest RAM, read from its four bytes, takes no draw. -/
theorem memRead_of_peek {s : State} {a v : Word} (h0 : peek s a = some (byteOf v 0))
    (h1 : peek s (a + 1) = some (byteOf v 1)) (h2 : peek s (a + 2) = some (byteOf v 2))
    (h3 : peek s (a + 3) = some (byteOf v 3)) : memRead s a = v := by
  rw [memRead, readByte_of_peek h0, readByte_of_peek h1, readByte_of_peek h2, readByte_of_peek h3, bytes_of_word]

end Sys2Proof.Machine
end

