-- ==== Sys2Proof/Laws/Timer.lean ====
section
/-! SUPPORT. What the timer's shared operations do: the channel a reschedule selects, what it writes, and what the two
loops over the channels leave. -/

namespace Sys2Proof.Machine

theorem Timer_eligible_iff (t : Timer) (i : Fin 4) : t.eligible i = true ↔ t.isMatched i = false := by
  simp [Timer.eligible]

/-- The index chosen among a list has the smallest delta there. -/
theorem Timer_nearestOf_some (t : Timer) (l : List (Fin 4)) (k : Fin 4) (h : t.nearestOf l = some k) :
    k ∈ l ∧ ∀ i ∈ l, (t.delta k).toNat ≤ (t.delta i).toNat := by
  induction l generalizing k with
  | nil => simp [Timer.nearestOf] at h
  | cons i l ih =>
    simp only [Timer.nearestOf] at h
    split at h
    · rename_i hn
      cases h
      refine ⟨List.mem_cons_self, fun j hj => ?_⟩
      rcases List.mem_cons.mp hj with rfl | hj
      · exact Nat.le_refl _
      · cases l with
        | nil => cases hj
        | cons a b => simp only [Timer.nearestOf] at hn; split at hn <;> (try split at hn) <;> cases hn
    · rename_i m hm
      obtain ⟨hmem, hle⟩ := ih m hm
      split at h
      · rename_i hlt
        cases h
        refine ⟨List.mem_cons_self, fun j hj => ?_⟩
        rcases List.mem_cons.mp hj with rfl | hj
        · exact Nat.le_refl _
        · exact Nat.le_trans hlt (hle j hj)
      · rename_i hlt
        cases h
        refine ⟨List.mem_cons_of_mem _ hmem, fun j hj => ?_⟩
        rcases List.mem_cons.mp hj with rfl | hj
        · omega
        · exact hle j hj

theorem Timer_nearestOf_none (t : Timer) (l : List (Fin 4)) : t.nearestOf l = none ↔ l = [] := by
  cases l with
  | nil => simp [Timer.nearestOf]
  | cons i l =>
    simp only [Timer.nearestOf, reduceCtorEq, iff_false]
    split
    · simp
    · split <;> simp

theorem mem_channelIndexes (i : Fin 4) : i ∈ channelIndexes := by
  match i with
  | 0 | 1 | 2 | 3 => decide

/-- The selected channel is eligible and no eligible channel is nearer. -/
theorem Timer_nearest_some (t : Timer) (k : Fin 4) (h : t.nearest = some k) :
    t.eligible k = true ∧ ∀ i, t.eligible i = true → (t.delta k).toNat ≤ (t.delta i).toNat := by
  obtain ⟨hmem, hle⟩ := Timer_nearestOf_some t _ k h
  exact ⟨(List.mem_filter.mp hmem).2, fun i hi => hle i (List.mem_filter.mpr ⟨mem_channelIndexes i, hi⟩)⟩

theorem Timer_nearest_none (t : Timer) : t.nearest = none ↔ ∀ i, t.isMatched i = true := by
  rw [Timer.nearest, Timer_nearestOf_none, List.filter_eq_nil_iff]
  simp [mem_channelIndexes, Timer.eligible]

/-- All four bits set. -/
theorem Timer_matched_eq_full (t : Timer) : t.matched = 0xF ↔ ∀ i, t.isMatched i = true := by
  constructor
  · intro h i
    rw [Timer.isMatched, h]
    revert i; decide
  · intro h
    apply BitVec.eq_of_getLsbD_eq
    intro i hi
    have := h ⟨i, hi⟩
    simp only [Timer.isMatched] at this
    rw [this]
    match i with
    | 0 | 1 | 2 | 3 => rfl

/-- A reschedule touches the deadline and `next`, and nothing else. -/
theorem Timer_reschedule_eq (t : Timer) :
    t.reschedule = { t with next := t.reschedule.next, wake := t.reschedule.wake } := by
  unfold Timer.reschedule; split <;> rfl

section reschedule
variable (t : Timer)
@[simp] theorem reschedule_counter : t.reschedule.counter = t.counter := by rw [Timer_reschedule_eq]
@[simp] theorem reschedule_compare : t.reschedule.compare = t.compare := by rw [Timer_reschedule_eq]
@[simp] theorem reschedule_matched : t.reschedule.matched = t.matched := by rw [Timer_reschedule_eq]
@[simp] theorem reschedule_lines : t.reschedule.lines = t.lines := by rw [Timer_reschedule_eq]
@[simp] theorem reschedule_isMatched (i : Fin 4) : t.reschedule.isMatched i = t.isMatched i := by
  simp [Timer.isMatched]
end reschedule

/-- The low word of `c + zext(x)` is the low word of `c`, plus `x` (R161). -/
theorem low32_add_zeroExtend (c : Count) (x : Word) : low32 (c + x.zeroExtend 64) = low32 c + x := by
  apply BitVec.eq_of_toNat_eq
  simp only [low32, BitVec.extractLsb'_toNat, BitVec.toNat_add, BitVec.truncate_eq_setWidth, BitVec.toNat_setWidth]
  have := x.isLt
  omega

/-- A reschedule arms the timer, whatever it was before. -/
theorem Timer_reschedule_armed (t : Timer) : TimerArmed t.reschedule := by
  constructor
  · intro h
    rw [reschedule_matched] at h
    cases hn : t.nearest with
    | none => exact absurd ((Timer_matched_eq_full t).mpr ((Timer_nearest_none t).mp hn)) h
    | some k =>
      obtain ⟨hk, hle⟩ := Timer_nearest_some t k hn
      have e : t.reschedule =
          { t with next := t.compare.get k, wake := some (t.counter + (t.delta k).zeroExtend 64) } := by
        unfold Timer.reschedule; rw [hn]
      refine ⟨t.counter + (t.delta k).zeroExtend 64, k, by rw [e], ?_, ?_, by rw [e], ?_, ?_⟩
      · rw [low32_add_zeroExtend, e, Timer.delta, BitVec.add_comm, BitVec.sub_add_cancel]
      · rw [e]; exact hk
      · rw [e]; exact hle
      · rw [e]
        simp only [Timer.delta]
        generalize (t.compare.get k - low32 t.counter) = x
        rw [BitVec.add_comm, BitVec.add_sub_cancel]
  · intro h
    rw [reschedule_matched] at h
    have hn := (Timer_nearest_none t).mpr ((Timer_matched_eq_full t).mp h)
    unfold Timer.reschedule; rw [hn]

/-! ### The loops over the channels -/

theorem getLsbD_bitMask (i j : Fin 4) : (bitMask i).getLsbD j.val = decide (i = j) := by
  revert i j; decide

/-- One turn of the fire loop, seen from channel `j`. -/
theorem fireChannel_isMatched (t : Timer) (i j : Fin 4) :
    (t.fireChannel i).isMatched j = (t.isMatched j || (decide (i = j) && decide (t.compare.get i = t.next))) := by
  unfold Timer.fireChannel
  split
  · rename_i h
    simp only [Timer.isMatched, BitVec.getLsbD_or, getLsbD_bitMask]
    simp [h.2]
  · rename_i h
    by_cases e : i = j
    · subst e; cases hm : t.isMatched i <;> simp_all
    · simp [e]

theorem fireChannel_eq (t : Timer) (i : Fin 4) :
    t.fireChannel i = { t with matched := (t.fireChannel i).matched, lines := (t.fireChannel i).lines } := by
  unfold Timer.fireChannel; split <;> rfl

theorem acknowledgeChannel_isMatched (ack : BitVec 4) (t : Timer) (i j : Fin 4) :
    (t.acknowledgeChannel ack i).isMatched j = (t.isMatched j && !(decide (i = j) && ack.getLsbD i.val)) := by
  unfold Timer.acknowledgeChannel
  split
  · rename_i h
    have hj := j.isLt
    simp only [Timer.isMatched, BitVec.getLsbD_and, BitVec.getLsbD_not, getLsbD_bitMask, h.1, hj]
    simp
  · rename_i h
    by_cases e : i = j
    · subst e; cases hm : t.isMatched i <;> simp_all
    · simp [e]

theorem acknowledgeChannel_eq (ack : BitVec 4) (t : Timer) (i : Fin 4) :
    t.acknowledgeChannel ack i =
      { t with matched := (t.acknowledgeChannel ack i).matched, lines := (t.acknowledgeChannel ack i).lines } := by
  unfold Timer.acknowledgeChannel; split <;> rfl

/-- A turn of either loop keeps the lines in agreement with the mask (R33). -/
theorem fireChannel_lines (t : Timer) (i : Fin 4) (h : ∀ j, t.lines.get j = t.isMatched j) (j : Fin 4) :
    (t.fireChannel i).lines.get j = (t.fireChannel i).isMatched j := by
  rw [fireChannel_isMatched]
  unfold Timer.fireChannel
  split
  · rename_i hf
    by_cases e : i = j
    · subst e; simp [hf.2]
    · simp [Quad_get_set_of_ne _ _ _ _ e, e, h j]
  · rename_i hf
    by_cases e : i = j
    · subst e; rw [h]; cases hm : t.isMatched i <;> simp_all
    · simp [e, h j]

theorem acknowledgeChannel_lines (ack : BitVec 4) (t : Timer) (i : Fin 4) (h : ∀ j, t.lines.get j = t.isMatched j)
    (j : Fin 4) : (t.acknowledgeChannel ack i).lines.get j = (t.acknowledgeChannel ack i).isMatched j := by
  rw [acknowledgeChannel_isMatched]
  unfold Timer.acknowledgeChannel
  split
  · rename_i hf
    by_cases e : i = j
    · subst e; simp only [Quad_get_set_self]; simp [hf.1]
    · simp [Quad_get_set_of_ne _ _ _ _ e, e, h j]
  · rename_i hf
    by_cases e : i = j
    · subst e; rw [h]; cases hm : t.isMatched i <;> simp_all
    · simp [e, h j]

theorem fire_eq_turns (t : Timer) : t.fire = (((t.fireChannel 0).fireChannel 1).fireChannel 2).fireChannel 3 := rfl

theorem acknowledge_eq_turns (t : Timer) (ack : BitVec 4) :
    t.acknowledge ack = (((t.acknowledgeChannel ack 0).acknowledgeChannel ack 1).acknowledgeChannel ack
      2).acknowledgeChannel ack 3 := rfl

/-- The fire loop changes the mask and the lines, and nothing else. -/
theorem fire_eq (t : Timer) : t.fire = { t with matched := t.fire.matched, lines := t.fire.lines } := by
  rw [fire_eq_turns, fireChannel_eq (((t.fireChannel 0).fireChannel 1).fireChannel 2),
    fireChannel_eq ((t.fireChannel 0).fireChannel 1), fireChannel_eq (t.fireChannel 0), fireChannel_eq t]

@[simp] theorem fire_counter (t : Timer) : t.fire.counter = t.counter := by rw [fire_eq]
@[simp] theorem fire_compare (t : Timer) : t.fire.compare = t.compare := by rw [fire_eq]
@[simp] theorem fire_next (t : Timer) : t.fire.next = t.next := by rw [fire_eq]
@[simp] theorem fire_wake (t : Timer) : t.fire.wake = t.wake := by rw [fire_eq]

/-- The acknowledge loop changes the mask and the lines, and nothing else. -/
theorem acknowledge_eq (t : Timer) (ack : BitVec 4) :
    t.acknowledge ack = { t with matched := (t.acknowledge ack).matched, lines := (t.acknowledge ack).lines } := by
  rw [acknowledge_eq_turns,
    acknowledgeChannel_eq ack (((t.acknowledgeChannel ack 0).acknowledgeChannel ack 1).acknowledgeChannel ack 2),
    acknowledgeChannel_eq ack ((t.acknowledgeChannel ack 0).acknowledgeChannel ack 1),
    acknowledgeChannel_eq ack (t.acknowledgeChannel ack 0), acknowledgeChannel_eq ack t]

@[simp] theorem acknowledge_counter (t : Timer) (a : BitVec 4) : (t.acknowledge a).counter = t.counter := by
  rw [acknowledge_eq]
@[simp] theorem acknowledge_compare (t : Timer) (a : BitVec 4) : (t.acknowledge a).compare = t.compare := by
  rw [acknowledge_eq]

/-- After the fire loop a channel is matched when it was, or when its target is `next` (R172). -/
theorem fire_isMatched (t : Timer) (j : Fin 4) :
    t.fire.isMatched j = (t.isMatched j || decide (t.compare.get j = t.next)) := by
  have c (u : Timer) (i : Fin 4) : (u.fireChannel i).compare = u.compare := by rw [fireChannel_eq]
  have n (u : Timer) (i : Fin 4) : (u.fireChannel i).next = u.next := by rw [fireChannel_eq]
  simp only [fire_eq_turns, fireChannel_isMatched, c, n]
  match j with
  | 0 | 1 | 2 | 3 => simp

/-- After the acknowledge loop a channel is matched when it was and the mask does not acknowledge it (R165). -/
theorem acknowledge_isMatched (t : Timer) (ack : BitVec 4) (j : Fin 4) :
    (t.acknowledge ack).isMatched j = (t.isMatched j && !ack.getLsbD j.val) := by
  simp only [acknowledge_eq_turns, acknowledgeChannel_isMatched]
  match j with
  | 0 | 1 | 2 | 3 => simp

/-- Both loops keep the lines in agreement with the mask (R33). -/
theorem fire_lines (t : Timer) (h : ∀ j, t.lines.get j = t.isMatched j) (j : Fin 4) :
    t.fire.lines.get j = t.fire.isMatched j := by
  rw [fire_eq_turns]
  exact fireChannel_lines _ 3 (fireChannel_lines _ 2 (fireChannel_lines _ 1 (fireChannel_lines _ 0 h))) j

theorem acknowledge_lines (t : Timer) (ack : BitVec 4) (h : ∀ j, t.lines.get j = t.isMatched j) (j : Fin 4) :
    (t.acknowledge ack).lines.get j = (t.acknowledge ack).isMatched j := by
  rw [acknowledge_eq_turns]
  exact acknowledgeChannel_lines ack _ 3 (acknowledgeChannel_lines ack _ 2 (acknowledgeChannel_lines ack _ 1
    (acknowledgeChannel_lines ack _ 0 h))) j

/-- A channel's line after the fire loop (R172). -/
theorem fire_lines_get (t : Timer) (j : Fin 4) :
    t.fire.lines.get j = if t.isMatched j = false ∧ t.compare.get j = t.next then true else t.lines.get j := by
  have one (u : Timer) (i : Fin 4) : (u.fireChannel i).lines.get j =
      if i = j ∧ u.isMatched j = false ∧ u.compare.get j = u.next then true else u.lines.get j := by
    unfold Timer.fireChannel
    by_cases e : i = j
    · subst e; split <;> simp_all
    · split <;> simp [e, Quad_get_set_of_ne]
  have c (u : Timer) (i : Fin 4) : (u.fireChannel i).compare = u.compare := by rw [fireChannel_eq]
  have n (u : Timer) (i : Fin 4) : (u.fireChannel i).next = u.next := by rw [fireChannel_eq]
  rw [fire_eq_turns]
  simp only [one, fireChannel_isMatched, c, n]
  match j with
  | 0 | 1 | 2 | 3 => simp

/-- A channel's line after the acknowledge loop (R165). -/
theorem acknowledge_lines_get (ack : BitVec 4) (t : Timer) (j : Fin 4) :
    (t.acknowledge ack).lines.get j =
      if ack.getLsbD j.val = true ∧ t.isMatched j = true then false else t.lines.get j := by
  have one (u : Timer) (i : Fin 4) : (u.acknowledgeChannel ack i).lines.get j =
      if i = j ∧ ack.getLsbD j.val = true ∧ u.isMatched j = true then false else u.lines.get j := by
    unfold Timer.acknowledgeChannel
    by_cases e : i = j
    · subst e; split <;> grind [Quad_get_set_self]
    · split <;> simp [e, Quad_get_set_of_ne]
  rw [acknowledge_eq_turns]
  simp only [one, acknowledgeChannel_isMatched]
  match j with
  | 0 | 1 | 2 | 3 => simp

/-! ### The armed timer -/

/-- A distance of zero is no distance. -/
theorem zeroExtend_eq_zero {c d : Count} {x : Word} (h : d - c = x.zeroExtend 64) (e : d = c) : x = 0 := by
  subst e
  apply BitVec.eq_of_toNat_eq
  have h := congrArg BitVec.toNat h
  have := x.isLt
  simp at h ⊢
  omega

/-- On an armed timer, when the tick is due, `next` is the counter's low word (10_state.md R32). -/
theorem TimerArmed_next_of_due {t : Timer} (h : TimerArmed t) (hw : t.wake = some t.counter) :
    t.next = low32 t.counter := by
  by_cases hm : t.matched = 0xF
  · exact absurd ((h.2 hm).symm.trans hw) (by simp)
  obtain ⟨d, k, hd, -, -, -, -, hdd⟩ := h.1 hm
  rw [hw] at hd; cases hd
  simpa using BitVec.sub_eq_iff_eq_add.mp (zeroExtend_eq_zero hdd rfl)

/-- A count that does not pass the deadline brings every target one count nearer (R177(c)). -/
theorem delta_succ (c : Count) (x : Word) (h : x - low32 c ≠ 0) :
    (x - low32 (c + 1)).toNat + 1 = (x - low32 c).toNat := by
  rw [show low32 (c + 1) = low32 c + 1 from low32_add_zeroExtend c 1]
  have h0 : (x - low32 c).toNat ≠ 0 := fun e => h (BitVec.eq_of_toNat_eq (by simpa using e))
  have h1 : x - (low32 c + 1) = (x - low32 c) - 1 := by
    generalize low32 c = y
    apply BitVec.eq_of_toNat_eq; simp [BitVec.toNat_sub]; omega
  rw [h1]
  generalize x - low32 c = y at h0
  rw [BitVec.toNat_sub, show (1 : Word).toNat = 1 from rfl]
  have := y.isLt
  omega

/-- The lines driven from a mask agree with it (44_host_operations.md R221). -/
theorem linesOf_get (m : BitVec 4) (i : Fin 4) : (linesOf m).get i = m.getLsbD i.val := by
  match i with
  | 0 | 1 | 2 | 3 => rfl

end Sys2Proof.Machine
end

