-- ==== Sys2Proof/Certificates/Slice0/Obligations.lean ====
section
/-! DEFINITION. The statements for the provers. A statement about one action holds for every state, reached or not, that
meets its hypotheses; equations `exec i s = .next { s with … }` say at once that the action completes, what it writes
and that it leaves everything else (the frame, every byte of memory included). -/

open Sys2Proof Sys2Proof.Machine

/-! ### The transaction word -/

/-- R91, R92, R94, R101: no field of a row is lost between encoder and decoder, at every operand value. -/
def Obligations.DecodeInvertsEncode : Prop :=
  ∀ i : Instr, i.wellFormed = true → decode (encode i) = .ok (.row i)

/-- A decoded row's one encoding is the word it was read from (R107: no word is two rows). That the row is well-formed says
something at EV.RESTORE only, and is the model's choice there: the decoder refuses a record no EV.SAVE produced (R223, 93
U19; log 15). -/
def Obligations.DecodedRowEncodesBack : Prop :=
  ∀ (p : Packet) (i : Instr), decode p = .ok (.row i) → i.wellFormed = true ∧ (encode i).tw = p.tw

/-- R107 and R102: every word is exactly one of a row of the table, a reserved transaction of devices 0 to 3, or
invalid. A table word that does not decode to a row is EV.RESTORE's with a record no EV.SAVE produced (log 15). -/
def Obligations.EveryWordIsRowReservedOrInvalid : Prop :=
  (opcodeTable.map Prod.snd).Nodup ∧
  ∀ p : Packet,
    (p.tw ∈ opcodeTable.map Prod.snd ∧
      ((∃ i, decode p = .ok (.row i) ∧ (i.mnemonic, p.tw) ∈ opcodeTable) ∨
        (p.tw = 0xE000000005 ∧ p.operands.record.wellFormed = false ∧ decode p = .error .malformedRecord))) ∨
    (p.tw ∉ opcodeTable.map Prod.snd ∧ ∃ d : Device, twDev p.tw = d.code ∧
      decode p = .ok (.reserved ⟨d, twWrite p.tw, twSize p.tw, twOff p.tw⟩)) ∨
    (p.tw ∉ opcodeTable.map Prod.snd ∧ (∀ d : Device, twDev p.tw ≠ d.code) ∧
      decode p = .error (if twDev p.tw = 7 then .noSuchEvent else .noSuchDevice))

/-- Words written out from R93, R94 and R101. -/
def Obligations.TableWordsDecodeAsWritten : Prop :=
  decodeTableWord 40 0x1400000000 = some (.mboxWrCmdPower 0) ∧
  decodeTableWord 40 0x6400000004 = some .mboxRdStatusVchiq ∧
  decodeTableWord 40 0x3400000000 = some (.fbWrCmd 0) ∧
  decodeTableWord 40 0x5400000010 = some (.stWrCmp1 0) ∧
  decodeTableWord 40 0x440000000C = some .stRdCmp0 ∧
  decodeTableWord 40 0xE000000002 = some .evTick

/-! ### The step and the decode layer -/

/-- 20_memory.md R71: a packet at the head of the inbox that decodes to a row runs that row, the packet consumed. The one
exception is the model's (log 9): a count asked for while a tick is due takes the tick first (R173), the packet kept. -/
def Obligations.StepRunsTheDecodedRow : Prop :=
  ∀ (s : State) (p : Packet) (rest : List Stimulus) (i : Instr),
    s.params.valid = true → s.inbox = .packet p :: rest → decode p = .ok (.row i) →
    step s = if i = .evAdvance ∧ s.st.tickDue = true then exec .evTick s else exec i { s with inbox := rest }

/-- R122: a read at any offset and size, through packet, decoder and step, is `RegRead` as the rule writes it. -/
def Obligations.BusReadIsRegRead : Prop :=
  ∀ (s : State) (d : Device) (off : Word) (size : BitVec 4) (wdata : Word) (rest : List Stimulus),
    s.params.valid = true → s.inbox = .packet (accessPacket ⟨d, false, size, off⟩ wdata) :: rest →
    step s = regRead d off size { s with inbox := rest }

/-- R123: a write at any offset and size, through packet, decoder and step, is `RegWrite` as the rule writes it. -/
def Obligations.BusWriteIsRegWrite : Prop :=
  ∀ (s : State) (d : Device) (off : Word) (size : BitVec 4) (wdata : Word) (rest : List Stimulus),
    s.params.valid = true → s.inbox = .packet (accessPacket ⟨d, true, size, off⟩ wdata) :: rest →
    step s = regWrite d off size wdata { s with inbox := rest }

/-- R124: out-of-range read. -/
def Obligations.OutOfRangeReadReturnsZero : Prop :=
  ∀ (s : State) (d : Device) (off : Word) (size : BitVec 4) (wdata : Word) (rest : List Stimulus),
    s.params.valid = true → s.halted = false →
    s.inbox = .packet (accessPacket ⟨d, false, size, off⟩ wdata) :: rest →
    s.params.window d ≤ off.toNat →
    step s = .next { s with inbox := rest, gerr := s.gerr ++ [⟨d, .range, off⟩], out := .rdata 0 }

/-- R125: out-of-range write. -/
def Obligations.OutOfRangeWriteIsIgnored : Prop :=
  ∀ (s : State) (d : Device) (off : Word) (size : BitVec 4) (wdata : Word) (rest : List Stimulus),
    s.params.valid = true → s.halted = false →
    s.inbox = .packet (accessPacket ⟨d, true, size, off⟩ wdata) :: rest →
    s.params.window d ≤ off.toNat →
    step s = .next { s with inbox := rest, gerr := s.gerr ++ [⟨d, .range, off⟩], out := .none }

/-- R126: wrong width or misaligned offset, inside the window. -/
def Obligations.WrongWidthOrAlignmentIsNoOp : Prop :=
  ∀ (s : State) (a : Access) (wdata : Word) (rest : List Stimulus),
    s.params.valid = true → s.halted = false → s.inbox = .packet (accessPacket a wdata) :: rest →
    a.off.toNat < s.params.window a.dev → (a.size ≠ 4 ∨ a.off.toNat % 4 ≠ 0) →
    step s = .next { s with
      inbox := rest, gerr := s.gerr ++ [⟨a.dev, .access, a.off⟩],
      out := if a.write then .none else .rdata 0 }

/-- R127: an aligned 32-bit access to a hole of the window: 0x08 and up for the mailbox devices, 0x1C and up for ST. -/
def Obligations.HoleInWindowIsNoOp : Prop :=
  ∀ (s : State) (a : Access) (wdata : Word) (rest : List Stimulus),
    s.params.valid = true → s.halted = false → s.inbox = .packet (accessPacket a wdata) :: rest →
    a.off.toNat < s.params.window a.dev → a.size = 4 → a.off.toNat % 4 = 0 →
    (if a.dev = .st then 0x1C else 0x08) ≤ a.off.toNat →
    step s = .next { s with
      inbox := rest, gerr := s.gerr ++ [⟨a.dev, .undef, a.off⟩],
      out := if a.write then .none else .rdata 0 }

/-- From 40_register_device.md R129 and 10_state.md R39: on a halted platform every row but EV.RESET and every reserved
transaction stops, and a step that has a successor takes EV.RESET, whatever the inbox holds. Two things here are the model's:
that EV.RESTORE is among the rows that stop (DEDUCED, log 12, from R39, R129 and 92 D23, where R221 says "Enabled in any
state" and R223 "at any time"), and that a row which is not enabled ends in a fault named platformHalted (DESIGN CHOICE,
log 11). -/
def Obligations.HaltedPlatformTakesNoStep : Prop :=
  (∀ (i : Instr) (s : State), s.halted = true → i ≠ .evReset → exec i s = .fault .platformHalted) ∧
  (∀ (a : Access) (s : State), s.halted = true → runReserved a s = .fault .platformHalted) ∧
  ∀ s t : State, s.halted = true → step s = .next t →
    ∃ (p : Packet) (rest : List Stimulus), s.inbox = .packet p :: rest ∧ decode p = .ok (.row .evReset)

/-- What the model stops on before any rule of the block runs: parameters that break 00_scope.md R8, or put an address of a
register window over guest RAM or VRAM (93 U9), and words that are no transaction of the block (R102; log 15, log 16,
log 18). -/
def Obligations.InvalidConfigurationOrWordIsRefused : Prop :=
  (∀ s : State, s.params.valid = false → step s = .refused .badConfiguration) ∧
  (∀ (s : State) (d : Device) (k : Nat), k < s.params.window d →
    (s.params.isRam (s.params.baseOf d + BitVec.ofNat 32 k) = true ∨
      s.params.isVram (s.params.baseOf d + BitVec.ofNat 32 k) = true) →
    step s = .refused .badConfiguration) ∧
  ∀ (s : State) (p : Packet) (rest : List Stimulus) (e : DecodeError),
    s.params.valid = true → s.inbox = .packet p :: rest → decode p = .error e → step s = .refused (refusalOf e)

/-! ### Mailbox channels -/

/-- R141, R145: the doorbell is set whatever the value and whatever it was; nothing else changes. -/
def Obligations.MailboxCommandRaisesDoorbell : Prop :=
  ∀ (s : State) (wdata : Word), s.halted = false →
    exec (.mboxWrCmdPower wdata) s = .next { s with power := ⟨true, true⟩, out := .none } ∧
    exec (.mboxWrCmdVchiq wdata) s = .next { s with vchiq := ⟨true, true⟩, out := .none } ∧
    (encode (.mboxWrCmdPower wdata)).tw = 0x1400000000 ∧ (encode (.mboxWrCmdVchiq wdata)).tw = 0x7400000000

/-- R142, R146: the identity read acknowledges, pending or Idle, and returns the constant channel id. -/
def Obligations.MailboxIdentityReadAcknowledges : Prop :=
  (∀ s : State, s.halted = false →
    exec .mboxRdIdPower s = .next { s with power := ⟨false, false⟩, out := .rdata 0 } ∧
    exec .mboxRdIdVchiq s = .next { s with vchiq := ⟨false, false⟩, out := .rdata 3 }) ∧
  (encode .mboxRdIdPower).tw = 0x0400000000 ∧ (encode .mboxRdIdVchiq).tw = 0x6400000000

/-- R143: the status read returns the flag and changes nothing. -/
def Obligations.MailboxStatusReadReportsPending : Prop :=
  (∀ s : State, s.halted = false →
    exec .mboxRdStatusPower s = .next { s with out := .rdata (if s.power.pending then 1 else 0) } ∧
    exec .mboxRdStatusVchiq s = .next { s with out := .rdata (if s.vchiq.pending then 1 else 0) }) ∧
  (encode .mboxRdStatusPower).tw = 0x0400000004 ∧ (encode .mboxRdStatusVchiq).tw = 0x6400000004

/-- R144: a write to STATUS is reported and changes nothing else. -/
def Obligations.MailboxStatusWriteIsRejected : Prop :=
  ∀ (s : State) (wdata : Word), s.halted = false →
    exec (.mboxWrStatusPower wdata) s = .next { s with gerr := s.gerr ++ [⟨.power, .undef, 0x04⟩], out := .none } ∧
    exec (.mboxWrStatusVchiq wdata) s = .next { s with gerr := s.gerr ++ [⟨.vchiq, .undef, 0x04⟩], out := .none }

/-- R147: a command write and then an identity read: on POWER and VCHIQ from every non-halted state, on FBCTL for an
accepted push (`PushAccepted`; a descriptor or buffer over a register window has no meaning, R69, log 16). -/
def Obligations.MailboxHandshakeCompletes : Prop :=
  ∀ (s : State) (wdata : Word), s.halted = false →
    (∃ t u, exec (.mboxWrCmdPower wdata) s = .next t ∧ t.power = ⟨true, true⟩ ∧
      exec .mboxRdIdPower t = .next u ∧ u.power = ⟨false, false⟩ ∧ u.out = .rdata 0) ∧
    (∃ t u, exec (.mboxWrCmdVchiq wdata) s = .next t ∧ t.vchiq = ⟨true, true⟩ ∧
      exec .mboxRdIdVchiq t = .next u ∧ u.vchiq = ⟨false, false⟩ ∧ u.out = .rdata 3) ∧
    (s.fbctl.pending = false → PushAccepted s (descriptorAddr wdata) →
      ∃ t u, exec (.fbWrCmd wdata) s = .next t ∧ t.fbctl = ⟨true, true⟩ ∧
        exec .fbRdId t = .next u ∧ u.fbctl = ⟨false, false⟩ ∧ u.out = .rdata 1)

/-! ### The framebuffer channel -/

/-- R201: the identity read of FBCTL. -/
def Obligations.FramebufferIdentityReadAcknowledges : Prop :=
  (∀ s : State, s.halted = false →
    exec .fbRdId s = .next { s with fbctl := ⟨false, false⟩, out := .rdata 1 }) ∧
  (encode .fbRdId).tw = 0x2400000000

/-- R202: the status read of FBCTL. -/
def Obligations.FramebufferStatusReadReportsPending : Prop :=
  (∀ s : State, s.halted = false →
    exec .fbRdStatus s = .next { s with out := .rdata (if s.fbctl.pending then 1 else 0) }) ∧
  (encode .fbRdStatus).tw = 0x2400000004

/-- R204: a write to FBCTL's STATUS. -/
def Obligations.FramebufferStatusWriteIsRejected : Prop :=
  ∀ (s : State) (wdata : Word), s.halted = false →
    exec (.fbWrStatus wdata) s = .next { s with gerr := s.gerr ++ [⟨.fbctl, .undef, 0x04⟩], out := .none } ∧
    (encode (.fbWrStatus wdata)).tw = 0x3400000004

/-- R191: a push while pending is dropped and reported, no latch, line, flag or byte changes; the next identity read
lifts the guard. -/
def Obligations.ReentrantPushIsDropped : Prop :=
  ∀ (s : State) (wdata : Word), s.halted = false → s.fbctl.pending = true →
    exec (.fbWrCmd wdata) s = .next { s with gerr := s.gerr ++ [⟨.fbctl, .reentrant, 0x00⟩], out := .none } ∧
    ∃ t, exec .fbRdId s = .next t ∧ t.fbctl.pending = false

/-- R193: any depth word but 16 halts the platform: nothing is written back and the channel stays as it was. The seven
request latches hold what was read (R208). Premise: no byte of the descriptor lies in a register window, where a push has
no meaning (R69, log 16). `draws` is the model's own counter (log 5). -/
def Obligations.WrongDepthIsFatal : Prop :=
  ∀ (s : State) (wdata : Word), s.halted = false → s.fbctl.pending = false →
    s.params.touchesSomeWindow (descriptorAddr wdata) 40 = false →
    memRead s (descriptorAddr wdata + 20) ≠ 16 →
    let a := descriptorAddr wdata
    exec (.fbWrCmd wdata) s = .next { s with
      fb := { s.fb with
        xres := memRead s a, yres := memRead s (a + 4)
        xresVirtual := memRead s (a + 8), yresVirtual := memRead s (a + 12)
        bpp := memRead s (a + 20), xoffset := memRead s (a + 24), yoffset := memRead s (a + 28) }
      halted := true, draws := s.draws + 1, out := .fatal (.bpp (memRead s (a + 20))) }

/-- R195, R196, R208: a geometry beyond the bound, on exact integers, halts the platform; the bound is tested after the
depth. The premise on windows and `draws` as in `WrongDepthIsFatal`. -/
def Obligations.OversizeGeometryIsFatal : Prop :=
  ∀ (s : State) (wdata : Word), s.halted = false → s.fbctl.pending = false →
    s.params.touchesSomeWindow (descriptorAddr wdata) 40 = false →
    memRead s (descriptorAddr wdata + 20) = 16 →
    (let x := (memRead s (descriptorAddr wdata)).toNat
     let y := (memRead s (descriptorAddr wdata + 4)).toNat
     x * 2 > 0xFFFFFFFF ∨ y * (x * 2) > 0xFFFFFFFF ∨ y * (x * 2) > s.params.vramSize) →
    let a := descriptorAddr wdata
    exec (.fbWrCmd wdata) s = .next { s with
      fb := { s.fb with
        xres := memRead s a, yres := memRead s (a + 4)
        xresVirtual := memRead s (a + 8), yresVirtual := memRead s (a + 12)
        bpp := 16, xoffset := memRead s (a + 24), yoffset := memRead s (a + 28) }
      halted := true, draws := s.draws + 1, out := .fatal (.size (memRead s a) (memRead s (a + 4))) }

/-- R190, R192, R194, R197, R199, R200, R207: an accepted push, from every state whatever was configured before. The frame:
the latches, FBCTL's channel, memory (the three words of R198 alone, see `PushWritesOnlyThreeWords`) and the model's own
`draws` and `out`. -/
def Obligations.AcceptedPushConfiguresFramebuffer : Prop :=
  ∀ (s : State) (wdata : Word), s.halted = false → s.fbctl.pending = false → PushAccepted s (descriptorAddr wdata) →
    let a := descriptorAddr wdata
    ∃ t, exec (.fbWrCmd wdata) s = .next t ∧
      t = { s with
        fbctl := ⟨true, true⟩
        fb := t.fb
        mem := ((s.mem.putWord s.params (a + 16) t.fb.pitch).putWord s.params (a + 32) t.fb.base).putWord s.params
          (a + 36) t.fb.size
        draws := s.draws + 1
        out := .resize (memRead s a) (memRead s (a + 4)) } ∧
      t.fb.xres = memRead s a ∧ t.fb.yres = memRead s (a + 4) ∧
      t.fb.xresVirtual = memRead s (a + 8) ∧ t.fb.yresVirtual = memRead s (a + 12) ∧
      t.fb.bpp = 16 ∧ t.fb.xoffset = memRead s (a + 24) ∧ t.fb.yoffset = memRead s (a + 28) ∧
      t.fb.pitch.toNat = (memRead s a).toNat * 2 ∧
      t.fb.size.toNat = (memRead s (a + 4)).toNat * ((memRead s a).toNat * 2) ∧
      t.fb.base = s.params.vramOrigin ||| (a &&& s.params.bankMask) ∧
      t.fb.surface = ⟨memRead s a, memRead s (a + 4)⟩ ∧ t.fb.enabled = true ∧ t.fb.invalidate = true

/-- R198: after an accepted push of a descriptor in guest RAM the three output words read back, and the seven input words
are as the guest left them. Premise: no bank-select bit among the low six address bits (00_scope.md R7 "the high
bank-select bits"), without which two words of one descriptor could be one word. -/
def Obligations.WriteBackReadsBack : Prop :=
  ∀ (s : State) (wdata : Word), s.halted = false → s.fbctl.pending = false → PushAccepted s (descriptorAddr wdata) →
    s.mem.wf = true → banksAreHigh s.params = true →
    (∀ k : Word, k.toNat < 40 → s.params.isRam (descriptorAddr wdata + k) = true) →
    let a := descriptorAddr wdata
    ∃ t, exec (.fbWrCmd wdata) s = .next t ∧
      memRead t (a + 16) = t.fb.pitch ∧ memRead t (a + 32) = t.fb.base ∧ memRead t (a + 36) = t.fb.size ∧
      ∀ k : Word, k ∈ [0, 4, 8, 12, 20, 24, 28] → memRead t (a + k) = memRead s (a + k)

/-- The memory frame of an accepted push (R198): every byte, under every alias, outside the three words at `A+16`, `A+32`
and `A+36` reads as before. The addresses are those the meaning stores to. -/
def Obligations.PushWritesOnlyThreeWords : Prop :=
  ∀ (s : State) (wdata : Word), s.halted = false → s.fbctl.pending = false → PushAccepted s (descriptorAddr wdata) →
    s.mem.wf = true →
    ∃ t, exec (.fbWrCmd wdata) s = .next t ∧
      ∀ b : Word, inWord s.params (descriptorAddr wdata + offPitch) b = false →
        inWord s.params (descriptorAddr wdata + offBase) b = false →
        inWord s.params (descriptorAddr wdata + offSize) b = false → peek t b = peek s b

/-- R206, R96: the low four bits of the pushed value do nothing. -/
def Obligations.PushTagIsIgnored : Prop :=
  ∀ (s : State) (wdata wdata' : Word), wdata &&& 0xFFFFFFF0 = wdata' &&& 0xFFFFFFF0 →
    exec (.fbWrCmd wdata) s = exec (.fbWrCmd wdata') s

/-- R197 with R8: the placed base un-banks to the VRAM origin, and its bank bits are the descriptor address's. With U9: no
buffer that fits in the VRAM region touches a register window, so under valid parameters a push is never refused for its
buffer. -/
def Obligations.PlacedBaseUnbanksToOrigin : Prop :=
  ∀ (p : Params) (a : Word), p.valid = true →
    p.unbank (p.vramOrigin ||| (a &&& p.bankMask)) = p.vramOrigin ∧
    (p.vramOrigin ||| (a &&& p.bankMask)) &&& p.bankMask = a &&& p.bankMask ∧
    ∀ n : Nat, n ≤ p.vramSize → p.touchesSomeWindow (p.vramOrigin ||| (a &&& p.bankMask)) n = false

/-- R8, in the rule's own words: with valid parameters no address of the VRAM region has a bit of BANK_MASK set. -/
def Obligations.VramRegionHasNoBankBit : Prop :=
  ∀ (p : Params) (a : Word), p.valid = true →
    p.vramOrigin.toNat ≤ a.toNat → a.toNat < p.vramOrigin.toNat + p.vramSize → a &&& p.bankMask = 0

/-- R203: a refresh presents the view of the configured buffer and a successful one clears `invalidate`; a disabled
framebuffer presents nothing. No byte of memory changes. With the exact geometry of an accepted push the stride is
`pitch`. -/
def Obligations.RefreshPresentsTheView : Prop :=
  (∀ (s : State) (ok : Bool), s.halted = false →
    exec (.evRefresh ok) s =
      if s.fb.enabled then .next { s with
        fb := { s.fb with invalidate := if ok then false else s.fb.invalidate }
        out := .view ⟨s.fb.base, s.fb.size, s.fb.xres, s.fb.yres, s.fb.xres * 2, s.fb.invalidate⟩ }
      else .next { s with out := .none }) ∧
  (∀ s : State, s.halted = false → s.fb.enabled = true → GeometryExact s → s.fb.xres * 2 = s.fb.pitch) ∧
  ∀ ok, (encode (.evRefresh ok)).tw = 0xE000000003

/-- R66: a word written to guest RAM reads back, low byte at the lowest address. Premise: the four bytes are four bytes
(no bank-select bit among the low six address bits). -/
def Obligations.MemReadReturnsWhatMemWriteStored : Prop :=
  ∀ (s : State) (a v : Word), s.mem.wf = true → banksAreHigh s.params = true → wordIsRam s.params a = true →
    memRead (memWrite s a v) a = v ∧
    peek (memWrite s a v) a = some (v.extractLsb' 0 8) ∧ peek (memWrite s a v) (a + 1) = some (v.extractLsb' 8 8) ∧
    peek (memWrite s a v) (a + 2) = some (v.extractLsb' 16 8) ∧ peek (memWrite s a v) (a + 3) = some (v.extractLsb' 24 8)

/-! ### The system timer -/

/-- R160: with an eligible channel, a reschedule selects the least index among the smallest deltas, arms the one
deadline for it and changes nothing else; with none it only disarms. -/
def Obligations.RescheduleArmsNearestEligible : Prop :=
  ∀ t : Timer,
    ((∃ i, t.eligible i = true) →
      ∃ k, t.eligible k = true ∧
        (∀ i, t.eligible i = true →
          (t.compare.get k - low32 t.counter).toNat ≤ (t.compare.get i - low32 t.counter).toNat) ∧
        (∀ i, t.eligible i = true → t.compare.get i = t.compare.get k → k ≤ i) ∧
        t.reschedule = { t with
          next := t.compare.get k
          wake := some (t.counter + (t.compare.get k - low32 t.counter).zeroExtend 64) }) ∧
    ((∀ i, t.eligible i = false) → t.reschedule = { t with wake := none })

/-- R163, R180(b): with all four bits set the deadline goes and `next` stays. -/
def Obligations.RescheduleDisarmsWhenAllMatched : Prop :=
  ∀ t : Timer, t.matched = 0xF → t.reschedule = { t with wake := none }

/-- R176: when after a reschedule some eligible channel's target is the counter's low word, the deadline is the current
count, no count can pass, and the tick sets that channel's bit; and only then is the deadline the current count. -/
def Obligations.ZeroDeltaFiresImmediately : Prop :=
  (∀ (s : State) (t : Timer) (i : Fin 4), s.halted = false → s.st = t.reschedule → s.st.eligible i = true →
    s.st.compare.get i = low32 s.st.counter →
    s.st.wake = some s.st.counter ∧ (∀ u, exec .evAdvance s ≠ .next u) ∧
      ∃ u, exec .evTick s = .next u ∧ u.st.isMatched i = true ∧ u.st.lines.get i = true) ∧
  ∀ t : Timer, t.reschedule.wake = some t.counter → ∃ i, t.eligible i = true ∧ t.compare.get i = low32 t.counter

/-- R164: the match read. -/
def Obligations.MatchReadReturnsMask : Prop :=
  (∀ s : State, s.halted = false →
    ∃ v : Word, exec .stRdMatch s = .next { s with out := .rdata v } ∧
      v.extractLsb' 0 4 = s.st.matched ∧ v &&& 0xFFFFFFF0 = 0) ∧
  (encode .stRdMatch).tw = 0x4400000000

/-- R166, R167: the live counter's halves; together they are the counter. -/
def Obligations.CounterReadsReturnHalves : Prop :=
  (∀ s : State, s.halted = false →
    ∃ lo hi : Word, exec .stRdCntLo s = .next { s with out := .rdata lo } ∧
      exec .stRdCntHi s = .next { s with out := .rdata hi } ∧ hi ++ lo = s.st.counter) ∧
  (encode .stRdCntLo).tw = 0x4400000004 ∧ (encode .stRdCntHi).tw = 0x4400000008

/-- R168: a write to the counter is reported and changes nothing else. -/
def Obligations.CounterWritesAreRejected : Prop :=
  ∀ (s : State) (wdata : Word), s.halted = false →
    exec (.stWrCntLo wdata) s = .next { s with gerr := s.gerr ++ [⟨.st, .undef, 0x04⟩], out := .none } ∧
    exec (.stWrCntHi wdata) s = .next { s with gerr := s.gerr ++ [⟨.st, .undef, 0x08⟩], out := .none } ∧
    (encode (.stWrCntLo wdata)).tw = 0x5400000004 ∧ (encode (.stWrCntHi wdata)).tw = 0x5400000008

/-- R169: the compare reads. -/
def Obligations.CompareReadsReturnTargets : Prop :=
  (∀ s : State, s.halted = false →
    exec .stRdCmp0 s = .next { s with out := .rdata s.st.compare.c0 } ∧
    exec .stRdCmp1 s = .next { s with out := .rdata s.st.compare.c1 } ∧
    exec .stRdCmp2 s = .next { s with out := .rdata s.st.compare.c2 } ∧
    exec .stRdCmp3 s = .next { s with out := .rdata s.st.compare.c3 }) ∧
  (encode .stRdCmp0).tw = 0x440000000C ∧ (encode .stRdCmp1).tw = 0x4400000010 ∧
  (encode .stRdCmp2).tw = 0x4400000014 ∧ (encode .stRdCmp3).tw = 0x4400000018

/-- R165: the net effect on the mask, each cleared channel's line deasserted and the others' untouched, then Reschedule. -/
def Obligations.MatchWriteAcknowledges : Prop :=
  (∀ (s : State) (wdata : Word), s.halted = false →
    ∃ lines : Quad Bool,
      exec (.stWrMatch wdata) s = .next { s with
        st := Timer.reschedule { s.st with matched := s.st.matched &&& ~~~(wdata.extractLsb' 0 4), lines := lines }
        out := .none } ∧
      ∀ i : Fin 4, lines.get i =
        if wdata.getLsbD i.val = true ∧ s.st.isMatched i = true then false else s.st.lines.get i) ∧
  ∀ wdata : Word, (encode (.stWrMatch wdata)).tw = 0x5400000000

/-- R170: only that channel's target changes, then Reschedule; no match bit and no line changes. -/
def Obligations.CompareWritesRetargetOneChannel : Prop :=
  ∀ (s : State) (w : Word), s.halted = false →
    exec (.stWrCmp0 w) s = .next { s with
      st := Timer.reschedule { s.st with compare := { s.st.compare with c0 := w } }, out := .none } ∧
    exec (.stWrCmp1 w) s = .next { s with
      st := Timer.reschedule { s.st with compare := { s.st.compare with c1 := w } }, out := .none } ∧
    exec (.stWrCmp2 w) s = .next { s with
      st := Timer.reschedule { s.st with compare := { s.st.compare with c2 := w } }, out := .none } ∧
    exec (.stWrCmp3 w) s = .next { s with
      st := Timer.reschedule { s.st with compare := { s.st.compare with c3 := w } }, out := .none } ∧
    (encode (.stWrCmp0 w)).tw = 0x540000000C ∧ (encode (.stWrCmp1 w)).tw = 0x5400000010 ∧
    (encode (.stWrCmp2 w)).tw = 0x5400000014 ∧ (encode (.stWrCmp3 w)).tw = 0x5400000018

/-- R171: one count passes, mod 2^64, and nothing else changes; no count while the tick is due. -/
def Obligations.AdvanceAddsOneCount : Prop :=
  (∀ s : State, s.halted = false → s.st.wake ≠ some s.st.counter →
    exec .evAdvance s = .next { s with st := { s.st with counter := s.st.counter + 1 }, out := .none }) ∧
  (∀ s t : State, s.halted = false → s.st.wake = some s.st.counter → exec .evAdvance s ≠ .next t) ∧
  (encode .evAdvance).tw = 0xE000000001

/-- R172: the tick is enabled exactly at its deadline; every eligible channel whose target is `next` fires, the others'
bits and lines stay, then Reschedule. On an armed timer (10_state.md R32) that Reschedule never arms the current count. -/
def Obligations.TickFiresEveryDueChannel : Prop :=
  (∀ s : State, s.halted = false → s.st.wake = some s.st.counter →
    ∃ (m : BitVec 4) (lines : Quad Bool) (t : State),
      t = { s with st := Timer.reschedule { s.st with matched := m, lines := lines, wake := none }, out := .none } ∧
      exec .evTick s = .next t ∧
      (∀ i : Fin 4, s.st.isMatched i = false → s.st.compare.get i = s.st.next →
        m.getLsbD i.val = true ∧ lines.get i = true) ∧
      (∀ i : Fin 4, (s.st.isMatched i = true ∨ s.st.compare.get i ≠ s.st.next) →
        m.getLsbD i.val = s.st.isMatched i ∧ lines.get i = s.st.lines.get i) ∧
      (TimerArmed s.st → t.st.wake ≠ some t.st.counter)) ∧
  (∀ s t : State, s.halted = false → s.st.wake ≠ some s.st.counter → exec .evTick s ≠ .next t) ∧
  (encode .evTick).tw = 0xE000000002

/-- How the model says that a clock event is not enabled (log 10): it refuses it by name. -/
def Obligations.ClockEventsNotEnabledAreRefused : Prop :=
  ∀ s : State, s.halted = false →
    (s.st.wake = some s.st.counter → exec .evAdvance s = .refused .tickDueFirst) ∧
    (s.st.wake ≠ some s.st.counter → exec .evTick s = .refused .tickNotDue)

/-- 70_reset_and_hazards.md R268: acknowledging a matched channel at its matching count makes the tick due at once, and
that tick sets the bit and the line again. -/
def Obligations.AcknowledgeAtMatchingCountFiresAgain : Prop :=
  ∀ (s : State) (i : Fin 4) (wdata : Word), s.halted = false → s.st.isMatched i = true →
    wdata.getLsbD i.val = true → s.st.compare.get i = low32 s.st.counter →
    ∃ t u, exec (.stWrMatch wdata) s = .next t ∧ t.st.isMatched i = false ∧ t.st.tickDue = true ∧
      exec .evTick t = .next u ∧ u.st.isMatched i = true ∧ u.st.lines.get i = true

/-! ### Host events -/

/-- R220: the record, and no state change. -/
def Obligations.SaveReturnsThePersistedState : Prop :=
  (∀ s : State, s.halted = false →
    ∃ r : SaveRecord, exec .evSave s = .next { s with out := .record r } ∧
      r.compare = s.st.compare ∧ r.mask = s.st.matched ∧ r.wellFormed = true) ∧
  (encode .evSave).tw = 0xE000000004

/-- R221: every element at its reset value, counter `c`, the record's targets and mask, lines that agree, Reschedule; from
every state that is not halted (a halted one has no step but EV.RESET: R39, D23, log 12). Memory and the parameters stay
(R224). -/
def Obligations.RestoreRebuildsFromTheRecord : Prop :=
  ∀ (s : State) (r : SaveRecord) (c : Count), s.halted = false → r.wellFormed = true →
    ∃ lines : Quad Bool,
      exec (.evRestore r c) s = .next { s with
        power := ⟨false, false⟩, fbctl := ⟨false, false⟩, vchiq := ⟨false, false⟩
        st := Timer.reschedule ⟨c, r.compare, r.mask, 0, none, lines⟩
        fb := ⟨0, 0, 0, 0, 0, 0, 0, 0, 0, 0, false, false, ⟨0, 0⟩⟩
        halted := false, gerr := [], out := .none } ∧
      ∀ i : Fin 4, lines.get i = r.mask.getLsbD i.val

/-- R220, R221, R222: a restore of a save gives back targets and mask under any clock and loses a pending request. -/
def Obligations.RestoreOfSaveKeepsTimerLosesPending : Prop :=
  ∀ (s : State) (c : Count), s.halted = false →
    ∃ (t u : State) (r : SaveRecord), exec .evSave s = .next t ∧ t.out = .record r ∧
      exec (.evRestore r c) t = .next u ∧ u.st.compare = s.st.compare ∧ u.st.matched = s.st.matched ∧
      u.st.counter = c ∧ (∀ d, u.channel d = ⟨false, false⟩) ∧ u.fb.enabled = false ∧ u.mem = s.mem

/-- R260, R261: the reset, from every state: each element at its value of R47, the timer armed for the next count whose
low word is 0. Memory and the parameters are untouched. -/
def Obligations.ResetPutsEveryElementAtItsValue : Prop :=
  (∀ s : State,
    exec .evReset s = .next { s with
      power := ⟨false, false⟩, fbctl := ⟨false, false⟩, vchiq := ⟨false, false⟩
      st := ⟨s.params.t0, ⟨0, 0, 0, 0⟩, 0, 0,
        some (s.params.t0 + (0 - low32 s.params.t0).zeroExtend 64), ⟨false, false, false, false⟩⟩
      fb := ⟨0, 0, 0, 0, 0, 0, 0, 0, 0, 0, false, false, ⟨0, 0⟩⟩
      halted := false, gerr := [], out := .none }) ∧
  (encode .evReset).tw = 0xE000000000

/-- The state the model starts in is what EV.RESET leaves of it (R47); the parameters' values are the model's (log 1, 2). -/
def Obligations.ResetStateIsAFixpointOfReset : Prop :=
  exec .evReset State.reset = .next State.reset ∧ State.reset.params.valid = true

/-! ### Invariants and whole-machine rules -/

/-- R32, R33, R38 hold of the state after reset, and its memory is canonical. -/
def Obligations.InvariantHoldsAtReset : Prop := Inv State.reset

/-- R32, R33, R38 (with log 27 for an empty VRAM region) and R177: every step of every agent keeps the invariant. -/
def Obligations.StepKeepsTheInvariant : Prop :=
  ∀ s t : State, Inv s → step s = .next t → Inv t

/-- R26: only EV.ADVANCE, EV.RESET and EV.RESTORE move the counter. -/
def Obligations.OnlyTheClockMovesTheCounter : Prop :=
  ∀ (i : Instr) (s t : State), exec i s = .next t →
    i ≠ .evAdvance → i ≠ .evReset → (∀ r c, i ≠ .evRestore r c) → t.st.counter = s.st.counter

/-- R21: a compare register is written only by its own write, by EV.RESET and by EV.RESTORE. -/
def Obligations.OnlyItsOwnWriteChangesACompare : Prop :=
  ∀ (i : Instr) (s t : State), exec i s = .next t → i ≠ .evReset → (∀ r c, i ≠ .evRestore r c) →
    ((∀ w, i ≠ .stWrCmp0 w) → t.st.compare.c0 = s.st.compare.c0) ∧
    ((∀ w, i ≠ .stWrCmp1 w) → t.st.compare.c1 = s.st.compare.c1) ∧
    ((∀ w, i ≠ .stWrCmp2 w) → t.st.compare.c2 = s.st.compare.c2) ∧
    ((∀ w, i ≠ .stWrCmp3 w) → t.st.compare.c3 = s.st.compare.c3)

/-- R28, R180(c): on an armed timer a match bit rises only in EV.TICK, at the count whose low word is the channel's
target, or in EV.RESTORE; and it falls only in ST.WR_MATCH with the bit set, EV.RESET or EV.RESTORE. -/
def Obligations.MatchBitRisesOnlyAtItsTarget : Prop :=
  ∀ (i : Instr) (s t : State) (k : Fin 4), TimerArmed s.st → exec i s = .next t → (∀ r c, i ≠ .evRestore r c) →
    (s.st.isMatched k = false → t.st.isMatched k = true →
      i = .evTick ∧ s.st.compare.get k = low32 s.st.counter ∧ t.st.lines.get k = true) ∧
    (s.st.isMatched k = true → t.st.isMatched k = false →
      i = .evReset ∨ ∃ w, i = .stWrMatch w ∧ w.getLsbD k.val = true)

/-- R20 "each device instance owns its own registers exclusively", R36, R41: which rows can change each component. -/
def Obligations.EachComponentHasItsOwnWriters : Prop :=
  ∀ (i : Instr) (s t : State), exec i s = .next t → i ≠ .evReset → (∀ r c, i ≠ .evRestore r c) →
    (t.power = s.power ∨ i = .mboxRdIdPower ∨ ∃ w, i = .mboxWrCmdPower w) ∧
    (t.vchiq = s.vchiq ∨ i = .mboxRdIdVchiq ∨ ∃ w, i = .mboxWrCmdVchiq w) ∧
    (t.fbctl = s.fbctl ∨ i = .fbRdId ∨ ∃ w, i = .fbWrCmd w) ∧
    (t.fb = s.fb ∨ (∃ w, i = .fbWrCmd w) ∨ ∃ ok, i = .evRefresh ok) ∧
    (s.fb.enabled = true → t.fb.enabled = true) ∧
    (t.mem = s.mem ∨ ∃ w, i = .fbWrCmd w) ∧
    (t.halted = s.halted ∨ ∃ w, i = .fbWrCmd w) ∧
    (t.st = s.st ∨ i = .evAdvance ∨ i = .evTick ∨ (∃ w, i = .stWrMatch w) ∨
      ∃ w, i = .stWrCmp0 w ∨ i = .stWrCmp1 w ∨ i = .stWrCmp2 w ∨ i = .stWrCmp3 w)

/-- R40: the guest-error list only grows, by at most one record a step, until a reset or restore; and R45: no step writes a
parameter. -/
def Obligations.GuestErrorsAppendParametersStay : Prop :=
  ∀ (i : Instr) (s t : State), exec i s = .next t →
    t.params = s.params ∧
    (i ≠ .evReset → (∀ r c, i ≠ .evRestore r c) → t.gerr = s.gerr ∨ ∃ e, t.gerr = s.gerr ++ [e])

/-- R40: "no other rule reads it": two states that differ only in the guest-error list go to states that differ only in
it, or stop alike. -/
def Obligations.GuestErrorListIsNeverRead : Prop :=
  ∀ (i : Instr) (s : State) (g : List GuestError),
    match exec i s with
    | .next t => ∃ g', exec i { s with gerr := g } = .next { t with gerr := g' }
    | .fault f => exec i { s with gerr := g } = .fault f
    | .refused r => exec i { s with gerr := g } = .refused r

/-- R173, R175, R180(c), 70_reset_and_hazards.md R280: on an armed timer with nobody but the clock and the wake-up
acting (the model's free run, log 8), every eligible channel fires after exactly its delta of counts: its bit is clear in
every earlier state of the run, and the step that sets it comes when the counter has advanced by that delta, which is
within one wrap of the low word; the run spends at most four steps beside the counts, on ticks. -/
def Obligations.EveryEligibleChannelFiresWithinItsDelta : Prop :=
  ∀ (s : State) (i : Fin 4), s.params.valid = true → s.halted = false → s.inbox = [] → TimerArmed s.st →
    s.st.eligible i = true →
    ∃ (n : Nat) (t : State), n ≤ (s.st.delta i).toNat + 4 ∧ Sys2Proof.core.run n s = .next t ∧
      t.st.isMatched i = true ∧ t.st.lines.get i = true ∧
      t.st.counter = s.st.counter + (s.st.delta i).zeroExtend 64 ∧
      ∀ (m : Nat) (u : State), m < n → Sys2Proof.core.run m s = .next u → u.st.isMatched i = false

/-- The same for the nearest deadline, step by step (R171 to R173): the free run reaches the deadline's count with nothing
else changed, and its next step is the tick. -/
def Obligations.FreeRunCountsToTheDeadline : Prop :=
  ∀ (s : State) (d : Count), s.params.valid = true → s.halted = false → s.inbox = [] → s.st.wake = some d →
    ∃ t, Sys2Proof.core.run (d - s.st.counter).toNat s = .next t ∧
      t = { s with st := { s.st with counter := d }, out := t.out } ∧ step t = exec .evTick t
end

