-- ==== Sys2Proof/Laws/PerInstr.lean ====
section
/-! SUPPORT. Family TableWord: the encoder's word of every row is the row's match value in opcode_table.json, whatever
the operands (30_encoding.md R101). -/

namespace Sys2Proof.Laws.TableWord

/-- The row's mnemonic and the encoder's word stand together in the opcode table. -/
def Statement (i : Instr) : Prop := (i.mnemonic, (encode i).tw) ∈ opcodeTable

/-- Membership read off by evaluation: neither the mnemonic nor the word depends on an operand. -/
theorem mem_of_elem {x : String × BitVec 40} (h : opcodeTable.contains x = true) : x ∈ opcodeTable := by
  simpa using h

theorem mboxWrCmdPower (wdata : Word) : Statement (.mboxWrCmdPower wdata) := by
  exact mem_of_elem rfl

theorem mboxRdIdPower : Statement .mboxRdIdPower := by
  exact mem_of_elem rfl

theorem mboxRdStatusPower : Statement .mboxRdStatusPower := by
  exact mem_of_elem rfl

theorem mboxWrStatusPower (wdata : Word) : Statement (.mboxWrStatusPower wdata) := by
  exact mem_of_elem rfl

theorem mboxWrCmdVchiq (wdata : Word) : Statement (.mboxWrCmdVchiq wdata) := by
  exact mem_of_elem rfl

theorem mboxRdIdVchiq : Statement .mboxRdIdVchiq := by
  exact mem_of_elem rfl

theorem mboxRdStatusVchiq : Statement .mboxRdStatusVchiq := by
  exact mem_of_elem rfl

theorem mboxWrStatusVchiq (wdata : Word) : Statement (.mboxWrStatusVchiq wdata) := by
  exact mem_of_elem rfl

theorem fbWrCmd (wdata : Word) : Statement (.fbWrCmd wdata) := by
  exact mem_of_elem rfl

theorem fbRdId : Statement .fbRdId := by
  exact mem_of_elem rfl

theorem fbRdStatus : Statement .fbRdStatus := by
  exact mem_of_elem rfl

theorem fbWrStatus (wdata : Word) : Statement (.fbWrStatus wdata) := by
  exact mem_of_elem rfl

theorem stRdMatch : Statement .stRdMatch := by
  exact mem_of_elem rfl

theorem stWrMatch (wdata : Word) : Statement (.stWrMatch wdata) := by
  exact mem_of_elem rfl

theorem stRdCntLo : Statement .stRdCntLo := by
  exact mem_of_elem rfl

theorem stRdCntHi : Statement .stRdCntHi := by
  exact mem_of_elem rfl

theorem stWrCntLo (wdata : Word) : Statement (.stWrCntLo wdata) := by
  exact mem_of_elem rfl

theorem stWrCntHi (wdata : Word) : Statement (.stWrCntHi wdata) := by
  exact mem_of_elem rfl

theorem stRdCmp0 : Statement .stRdCmp0 := by
  exact mem_of_elem rfl

theorem stRdCmp1 : Statement .stRdCmp1 := by
  exact mem_of_elem rfl

theorem stRdCmp2 : Statement .stRdCmp2 := by
  exact mem_of_elem rfl

theorem stRdCmp3 : Statement .stRdCmp3 := by
  exact mem_of_elem rfl

theorem stWrCmp0 (wdata : Word) : Statement (.stWrCmp0 wdata) := by
  exact mem_of_elem rfl

theorem stWrCmp1 (wdata : Word) : Statement (.stWrCmp1 wdata) := by
  exact mem_of_elem rfl

theorem stWrCmp2 (wdata : Word) : Statement (.stWrCmp2 wdata) := by
  exact mem_of_elem rfl

theorem stWrCmp3 (wdata : Word) : Statement (.stWrCmp3 wdata) := by
  exact mem_of_elem rfl

theorem evReset : Statement .evReset := by
  exact mem_of_elem rfl

theorem evAdvance : Statement .evAdvance := by
  exact mem_of_elem rfl

theorem evTick : Statement .evTick := by
  exact mem_of_elem rfl

theorem evRefresh (ok : Bool) : Statement (.evRefresh ok) := by
  exact mem_of_elem rfl

theorem evSave : Statement .evSave := by
  exact mem_of_elem rfl

theorem evRestore (record : SaveRecord) (clock : Count) : Statement (.evRestore record clock) := by
  exact mem_of_elem rfl

end Sys2Proof.Laws.TableWord
end

