-- ==== Sys2Proof/Tests/Slice0.lean ====
section
/-! SUPPORT. The model's own tests: words written out from the spec's encodings, single steps with results taken from
95_test_vectors.md (the vector's name stands in each comment), and for every statement with hypotheses a concrete case
that meets them. -/

namespace Sys2Proof.Tests

open Sys2Proof.Machine

/-! ### Helpers -/

/-- The next state of an outcome, if it has one. -/
def after (r : Result) : Option State :=
  match r with
  | .next s => some s
  | _ => none

/-- The refusal of an outcome, if it is one. -/
def refusal (r : Result) : Option Refusal :=
  match r with
  | .refused x => some x
  | _ => none

/-- The outcome is the fault of a halted platform. -/
def stopsHalted (r : Result) : Bool :=
  match r with
  | .fault .platformHalted => true
  | _ => false

/-- `DESC A = {w0, ...}` (30_encoding.md R105). -/
def desc (a : Word) (ws : List Word) (s : State) : State :=
  storeBytes s a (ws.flatMap fun w => [byteOf w 0, byteOf w 1, byteOf w 2, byteOf w 3])

/-- The reset state with one bus transaction waiting. -/
def withAccess (a : Access) (wdata : Word) : State := { State.reset with inbox := [.packet (accessPacket a wdata)] }

/-- The reset state with this timer. -/
def withTimer (t : Timer) : State := { State.reset with st := t }

/-- Vector S6's state: the descriptor at 0x1000. -/
def s6 : State := desc 0x1000 [640, 480, 640, 480, 0xAAAAAAAA, 16, 0, 0, 0xBBBBBBBB, 0xCCCCCCCC] State.reset

/-- Program P4's state: a descriptor of depth 32 at 0x3000. -/
def p4 : State := desc 0x3000 [1024, 768, 1024, 768, 0x11111111, 32, 0, 0, 0x22222222, 0x33333333] State.reset

/-- The same descriptor with depth 16 and this geometry. -/
def asking (x y : Word) : State := desc 0x3000 [x, y, x, y, 0, 16, 0, 0, 0, 0] State.reset

/-- Every mailbox channel pending. -/
def busy : State := { State.reset with power := ⟨true, true⟩, fbctl := ⟨true, true⟩, vchiq := ⟨true, true⟩ }

/-- Vector T5's timer. -/
def t5 : Timer := ⟨1500, ⟨1500, 1500, 2000, 0⟩, 0x8, 1500, some 1500, ⟨false, false, false, true⟩⟩

/-- Vector T6's timer: channels 0 and 2 matched. -/
def t6 : Timer := Timer.reschedule ⟨3000, ⟨2000, 0, 2000, 0⟩, 0x5, 0, none, ⟨true, false, true, false⟩⟩

/-- Vector T1's timer. -/
def t1 : Timer := ⟨0xFFFFFF00, ⟨0x10, 0xFFFFFF80, 0xFFFFFE00, 0x10⟩, 0, 0, none, ⟨false, false, false, false⟩⟩

/-! ### Decoding: words written out field by field (30_encoding.md R91 to R94), and WellFormed -/

theorem test_decode_mailbox_write :
    decode ⟨0b000#3 ++ 1#1 ++ 4#4 ++ 0x00#32, { Operands.zero with wdata := 0x80 }⟩ = .ok (.row (.mboxWrCmdPower 0x80)) := rfl

theorem test_decode_mailbox_read : decode ⟨0b011#3 ++ 0#1 ++ 4#4 ++ 0x00#32, .zero⟩ = .ok (.row .mboxRdIdVchiq) := rfl

theorem test_decode_framebuffer :
    decode ⟨0b001#3 ++ 1#1 ++ 4#4 ++ 0x00#32, { Operands.zero with wdata := 0x1000 }⟩ = .ok (.row (.fbWrCmd 0x1000)) := rfl

theorem test_decode_timer_compare :
    decode ⟨0b010#3 ++ 1#1 ++ 4#4 ++ 0x10#32, { Operands.zero with wdata := 7 }⟩ = .ok (.row (.stWrCmp1 7)) := rfl

theorem test_decode_timer_counter : decode ⟨0b010#3 ++ 0#1 ++ 4#4 ++ 0x08#32, .zero⟩ = .ok (.row .stRdCntHi) := rfl

theorem test_decode_event :
    decode ⟨0b111#3 ++ 0#1 ++ 0#4 ++ 3#32, { Operands.zero with ok := true }⟩ = .ok (.row (.evRefresh true)) := rfl

/-- R102: a one-byte read is reserved, not its neighbour. -/
theorem test_decode_reserved :
    decode ⟨0b000#3 ++ 0#1 ++ 1#4 ++ 0x00#32, .zero⟩ = .ok (.reserved ⟨.power, false, 1, 0⟩) := rfl

/-- R102: devices 4 to 6, event numbers above 5 and events with a size are no transactions. -/
theorem test_decode_invalid :
    decode ⟨0b100#3 ++ 0#1 ++ 4#4 ++ 0#32, .zero⟩ = .error .noSuchDevice ∧
    decode ⟨0b111#3 ++ 0#1 ++ 0#4 ++ 6#32, .zero⟩ = .error .noSuchEvent ∧
    decode ⟨0b111#3 ++ 0#1 ++ 4#4 ++ 0#32, .zero⟩ = .error .noSuchEvent := ⟨rfl, rfl, rfl⟩

/-- R223: a record with a bit above bit 3 is no record of EV.SAVE, and the decoder refuses it. -/
theorem test_wellFormed_record :
    (Instr.evRestore ⟨⟨0, 0, 0, 0⟩, 0xF⟩ 0).wellFormed = true ∧ (Instr.evRestore ⟨⟨0, 0, 0, 0⟩, 0x10⟩ 0).wellFormed = false ∧
    decode ⟨0xE000000005, { Operands.zero with record := ⟨⟨0, 0, 0, 0⟩, 0x10⟩ }⟩ = .error .malformedRecord := ⟨rfl, rfl, rfl⟩

/-- Every row of the table, by its word, decodes to the row of its mnemonic. -/
theorem test_decode_table :
    opcodeTable.all (fun r => (decodeTableWord 40 r.2.toNat).map Instr.mnemonic == some r.1) = true := by decide

/-! ### Register accesses that reach no register (40_register_device.md) -/

/-- X1. -/
theorem test_range_read :
    (after (step (withAccess ⟨.power, false, 4, 0x10⟩ 0))).map (fun s => (s.out, s.gerr)) =
      some (.rdata 0, [⟨.power, .range, 0x10⟩]) := by decide

/-- X3. -/
theorem test_range_write :
    (after (step (withAccess ⟨.st, true, 4, 0x20⟩ 0xF))).map (fun s => (s.st.matched, s.gerr)) =
      some (0, [⟨.st, .range, 0x20⟩]) := by decide

/-- X9 and X10: in range and misaligned; out of range before width. -/
theorem test_access_order :
    (after (step (withAccess ⟨.st, false, 4, 0x1F⟩ 0))).map (·.gerr) = some [⟨.st, .access, 0x1F⟩] ∧
    (after (step (withAccess ⟨.st, false, 2, 0x22⟩ 0))).map (·.gerr) = some [⟨.st, .range, 0x22⟩] := by decide

/-- X2 and X4: the holes. -/
theorem test_hole :
    (after (step (withAccess ⟨.power, false, 4, 0x0C⟩ 0))).map (·.gerr) = some [⟨.power, .undef, 0x0C⟩] ∧
    (after (step (withAccess ⟨.st, false, 4, 0x1C⟩ 0))).map (·.gerr) = some [⟨.st, .undef, 0x1C⟩] := by decide

/-- X6: a one-byte identity read acknowledges nothing. -/
theorem test_narrow_read :
    (after (step { busy with inbox := [.packet ⟨0x0100000000, .zero⟩] })).map (fun s => (s.power.pending, s.gerr)) =
      some (true, [⟨.power, .access, 0⟩]) := by decide

/-- X13, R129: a halted platform answers no access; R39, D23: and no restore. -/
theorem test_halted :
    stopsHalted (exec .mboxRdIdPower { State.reset with halted := true }) = true ∧
    stopsHalted (exec (.evRestore ⟨⟨1500, 0, 0, 0⟩, 0⟩ 1000) { State.reset with halted := true }) = true := by decide

/-! ### Mailbox channels (41_mailbox_channel.md) -/

/-- M1: POWER alone. -/
theorem test_command_power :
    (after (exec (.mboxWrCmdPower 0xFFFFFFFF) State.reset)).map (fun s => (s.power, s.vchiq)) =
      some (⟨true, true⟩, ⟨false, false⟩) := by decide

theorem test_command_vchiq :
    (after (exec (.mboxWrCmdVchiq 0) State.reset)).map (fun s => (s.power, s.vchiq)) =
      some (⟨false, false⟩, ⟨true, true⟩) := by decide

/-- M4, M6. -/
theorem test_identity_power :
    (after (exec .mboxRdIdPower busy)).map (fun s => (s.power, s.vchiq.pending, s.out)) =
      some (⟨false, false⟩, true, .rdata 0) := by decide

theorem test_identity_vchiq :
    (after (exec .mboxRdIdVchiq busy)).map (fun s => (s.vchiq, s.power.pending, s.out)) =
      some (⟨false, false⟩, true, .rdata 3) := by decide

/-- M7. -/
theorem test_status_power : (after (exec .mboxRdStatusPower busy)).map (·.out) = some (.rdata 1) := by decide

/-- M8. -/
theorem test_status_vchiq : (after (exec .mboxRdStatusVchiq State.reset)).map (·.out) = some (.rdata 0) := by decide

/-- P2 step 10 and X12. -/
theorem test_status_write_power :
    (after (exec (.mboxWrStatusPower 0) busy)).map (fun s => (s.power.pending, s.gerr)) =
      some (true, [⟨.power, .undef, 0x04⟩]) := by decide

theorem test_status_write_vchiq :
    (after (exec (.mboxWrStatusVchiq 1) State.reset)).map (fun s => (s.vchiq.pending, s.gerr)) =
      some (false, [⟨.vchiq, .undef, 0x04⟩]) := by decide

/-! ### The framebuffer (43_framebuffer.md) -/

/-- S6. -/
theorem test_push_geometry :
    (after (exec (.fbWrCmd 0x1001) s6)).map
      (fun s => ((memRead s 0x1010, memRead s 0x1020, memRead s 0x1024), s.fb.surface, s.fbctl, s.fb.invalidate)) =
      some ((1280, 0x1C000000, 614400), ⟨640, 480⟩, ⟨true, true⟩, true) := by decide +kernel

/-- F3: the bank bits of the pushed address stand in the base; P3 step 6: the alias reads and writes the same bytes. -/
theorem test_push_alias :
    (after (exec (.fbWrCmd 0x80001008) s6)).map (fun s => (s.fb.base, memRead s 0x1020, s.fb.yres)) =
      some (0x9C000000, 0x9C000000, 480) := by decide +kernel

/-- P2's counterpart for FBCTL, R201, R202, R204. -/
theorem test_fb_identity :
    (after (exec .fbRdId busy)).map (fun s => (s.fbctl, s.out, s.power.pending)) = some (⟨false, false⟩, .rdata 1, true) := by
  decide

theorem test_fb_status : (after (exec .fbRdStatus busy)).map (·.out) = some (.rdata 1) := by decide

theorem test_fb_status_write :
    (after (exec (.fbWrStatus 1) State.reset)).map (fun s => (s.fbctl.pending, s.gerr)) =
      some (false, [⟨.fbctl, .undef, 0x04⟩]) := by decide

/-- F5: a failed presentation keeps `invalidate`, and the view has the stride of 16 bits a pixel. -/
theorem test_refresh :
    (after (exec (.evRefresh false) { State.reset with
      fb := { Framebuffer.zero with xres := 640, yres := 480, size := 614400, base := 0x1C000000, enabled := true, invalidate := true } })).map
      (fun s => (s.fb.invalidate, s.out)) =
      some (true, .view ⟨0x1C000000, 614400, 640, 480, 1280, true⟩) := by decide

/-! ### The system timer (42_system_timer.md) -/

/-- T1, T2, T3. -/
theorem test_reschedule :
    (t1.reschedule.next, t1.reschedule.wake) = (0xFFFFFF80, some 0xFFFFFF80) ∧
    (let t := Timer.reschedule { t1 with matched := 2 }; (t.next, t.wake) = (0x10, some 0x100000010)) ∧
    (let t := Timer.reschedule { t1 with matched := 0xF, next := 9 }; (t.next, t.wake) = (9, none)) := by decide

/-- R164's example. -/
theorem test_match_read : (after (exec .stRdMatch (withTimer t6))).map (·.out) = some (.rdata 5) := by decide

/-- T6, first and last rows. -/
theorem test_match_write_one :
    (after (exec (.stWrMatch 1) (withTimer t6))).map (fun s => (s.st.matched, s.st.lines)) =
      some (4, ⟨false, false, true, false⟩) := by decide

theorem test_match_write_all :
    (after (exec (.stWrMatch 0xFFFFFFFF) (withTimer t6))).map (fun s => (s.st.matched, s.st.lines)) =
      some (0, ⟨false, false, false, false⟩) := by decide

/-- R166, R167: the rules' example. -/
theorem test_counter_reads :
    (after (exec .stRdCntLo (withTimer { t5 with counter := 0x100000002 }))).map (·.out) = some (.rdata 2) ∧
    (after (exec .stRdCntHi (withTimer { t5 with counter := 0x100000002 }))).map (·.out) = some (.rdata 1) := by decide

/-- X11 and R168's example. -/
theorem test_counter_writes :
    (after (exec (.stWrCntLo 0x12345678) (withTimer t5))).map (fun s => (s.st, s.gerr)) = some (t5, [⟨.st, .undef, 4⟩]) ∧
    (after (exec (.stWrCntHi 0xFFFFFFFF) (withTimer t5))).map (fun s => (s.st, s.gerr)) = some (t5, [⟨.st, .undef, 8⟩]) := by
  decide

/-- T9: each write reaches its own channel. -/
theorem test_compare_writes :
    (after (exec (.stWrCmp0 0x11111111) (withTimer t5))).map (·.st.compare) = some ⟨0x11111111, 1500, 2000, 0⟩ ∧
    (after (exec (.stWrCmp1 0x22222222) (withTimer t5))).map (·.st.compare) = some ⟨1500, 0x22222222, 2000, 0⟩ ∧
    (after (exec (.stWrCmp2 0x33333333) (withTimer t5))).map (·.st.compare) = some ⟨1500, 1500, 0x33333333, 0⟩ ∧
    (after (exec (.stWrCmp3 0x44444444) (withTimer t5))).map (·.st.compare) = some ⟨1500, 1500, 2000, 0x44444444⟩ := by
  decide

/-- T9: each read answers its own channel. -/
theorem test_compare_reads :
    (after (exec .stRdCmp0 (withTimer { t5 with compare := ⟨1, 2, 3, 4⟩ }))).map (·.out) = some (.rdata 1) ∧
    (after (exec .stRdCmp1 (withTimer { t5 with compare := ⟨1, 2, 3, 4⟩ }))).map (·.out) = some (.rdata 2) ∧
    (after (exec .stRdCmp2 (withTimer { t5 with compare := ⟨1, 2, 3, 4⟩ }))).map (·.out) = some (.rdata 3) ∧
    (after (exec .stRdCmp3 (withTimer { t5 with compare := ⟨1, 2, 3, 4⟩ }))).map (·.out) = some (.rdata 4) := by decide

/-- R170's example and T8: a matched channel's new target changes neither its bit nor its line. -/
theorem test_compare_write_arms :
    (after (exec (.stWrCmp0 1500) (withTimer (Timer.initial 1000)))).map (fun s => (s.st.next, s.st.wake)) =
      some (1500, some 1500) := by decide

theorem test_compare_write_matched :
    (after (exec (.stWrCmp0 3100) (withTimer t6))).map (fun s => (s.st.matched, s.st.lines.c0)) = some (5, true) := by decide

/-- T10. -/
theorem test_advance_wraps :
    (after (exec .evAdvance (withTimer { t5 with counter := 0xFFFFFFFFFFFFFFFF }))).map (·.st.counter) = some 0 := by decide

/-- T5. -/
theorem test_tick :
    (after (exec .evTick (withTimer t5))).map (·.st) =
      some ⟨1500, ⟨1500, 1500, 2000, 0⟩, 0xB, 2000, some 2000, ⟨true, true, false, true⟩⟩ := by decide

/-- H4: the reset-armed channels fire together. -/
theorem test_tick_after_reset :
    (after (step (State.reset.withFetchWord 40 0xE000000002))).map (fun s => (s.st.matched, s.st.wake)) =
      some (0xF, none) := by decide

/-- R173: with the tick due a waiting count takes the tick and stays. -/
theorem test_tick_first :
    (after (step (State.reset.withFetchWord 40 0xE000000001))).map (fun s => (s.st.matched, s.st.counter, s.inbox.length)) =
      some (0xF, 0, 1) := by decide

/-! ### Host events (44_host_operations.md) -/

/-- H1. -/
theorem test_save :
    (after (exec .evSave { busy with st := { t5 with compare := ⟨1500, 0, 0, 0⟩, matched := 1 } })).map
      (fun s => (s.out, s.power.pending)) = some (.record ⟨⟨1500, 0, 0, 0⟩, 1⟩, true) := by decide

/-- H2. -/
theorem test_restore_armed :
    (after (exec (.evRestore ⟨⟨1500, 0, 0, 0⟩, 0⟩ 1000) busy)).map (fun s => (s.st, s.power)) =
      some (⟨1000, ⟨1500, 0, 0, 0⟩, 0, 1500, some 1500, ⟨false, false, false, false⟩⟩, ⟨false, false⟩) := by decide

/-- H3. -/
theorem test_restore_matched :
    (after (exec (.evRestore ⟨⟨1500, 0, 0, 0⟩, 1⟩ 2000) busy)).map (·.st) =
      some ⟨2000, ⟨1500, 0, 0, 0⟩, 1, 0, some 0x100000000, ⟨true, false, false, false⟩⟩ := by decide

/-- H5, and P4 step 3: the reset leaves a halted platform running. -/
theorem test_reset :
    (after (exec .evReset { busy with halted := true, params := { Params.default with t0 := 1000 } })).map
      (fun s => ((s.st.next, s.st.wake, s.st.counter), s.halted, s.power)) =
      some ((0, some 0x100000000, 1000), false, ⟨false, false⟩) := by decide

/-! ### Guest memory (20_memory.md) -/

/-- F6: byte order, low byte first. -/
theorem test_byte_order :
    (memWrite State.reset 0x1010 0x500).mem = [(0x1011, 0x05)] ∧ memRead (memWrite State.reset 0x1010 0x500) 0x1010 = 0x500 := by
  decide

/-- R76: an alias names the same byte; R69: a write where there is no RAM is dropped. -/
theorem test_alias_and_hole :
    peek (memWrite State.reset 0x40001010 0x500) 0x1011 = some 0x05 ∧ memWrite State.reset 0x30000000 5 = State.reset := by
  decide

/-- Writing what an unlisted byte reads as removes the entry (the canonical form). -/
theorem test_memory_canonical : memWrite (memWrite State.reset 0x1010 0x500) 0x1010 0 = State.reset := by decide

/-! ### Witnesses: for each statement with hypotheses, a case that meets them together -/

/-- The reset state with this packet waiting. -/
def withPacket (p : Packet) : State := { State.reset with inbox := [.packet p] }

/-- A timer the spec's invariant holds of, one count after its reset at 1000: three channels eligible, channel 0 matched. -/
def armed : Timer := ⟨1001, ⟨1500, 0, 0, 2000⟩, 1, 2000, some 2000, ⟨true, false, false, false⟩⟩

theorem armed_timerArmed : TimerArmed armed :=
  (show armed = Timer.reschedule armed by decide) ▸ Timer_reschedule_armed armed

theorem t5_timerArmed : TimerArmed t5 := (show t5 = Timer.reschedule t5 by decide) ▸ Timer_reschedule_armed t5

theorem reset_timerArmed : TimerArmed State.reset.st :=
  (show State.reset.st = State.reset.st.reschedule by decide) ▸ Timer_reschedule_armed State.reset.st

/-- A state no reset leaves: a channel pending, a timer channel matched, a configured framebuffer, memory written. -/
def running : State := { State.reset with
  power := ⟨true, true⟩, st := armed
  fb := { Framebuffer.zero with
    xres := 640, yres := 480, bpp := 16, pitch := 1280, size := 614400, base := 0x5C000000
    enabled := true, surface := ⟨640, 480⟩ }
  mem := [(0x1011, 0x05)], inbox := [.packet (tablePacket 0xE000000001), .guestStore 0x2000 [1, 2]] }

theorem running_inv : Inv running :=
  ⟨⟨fun d => by cases d <;> rfl, by decide⟩, armed_timerArmed, fun _ => by decide, fun _ _ => by decide, by decide⟩

/-- Words and steps. -/
theorem test_witness_DecodeInvertsEncode : (Instr.evRestore ⟨⟨1, 2, 3, 4⟩, 0xF⟩ 5).wellFormed = true := by decide

theorem test_witness_DecodedRowEncodesBack :
    decode ⟨0x1400000000, ⟨7, true, ⟨⟨1, 2, 3, 4⟩, 0xFF⟩, 5⟩⟩ = .ok (.row (.mboxWrCmdPower 7)) := rfl

theorem test_witness_EveryWord_clauses :
    0x440000000C ∈ opcodeTable.map Prod.snd ∧ 0xE000000005 ∈ opcodeTable.map Prod.snd ∧
    0x44FFFFFFFC ∉ opcodeTable.map Prod.snd ∧ twDev 0x44FFFFFFFC = Device.st.code ∧
    0xE000000006 ∉ opcodeTable.map Prod.snd ∧ twDev 0xE000000006 = 7 ∧ twDev 0x8400000000 = 4 := by decide

theorem test_witness_StepRunsTheDecodedRow :
    State.reset.params.valid = true ∧ decode (tablePacket 0xE000000001) = .ok (.row .evAdvance) ∧
    State.reset.st.tickDue = true ∧ running.st.tickDue = false :=
  ⟨by decide, rfl, by decide, by decide⟩

theorem test_witness_BusReadIsRegRead :
    ∃ s : State, s.params.valid = true ∧ s.halted = false ∧ s.inbox = .packet (accessPacket ⟨.st, false, 4, 0x18⟩ 9) :: [] :=
  ⟨withAccess ⟨.st, false, 4, 0x18⟩ 9, by decide, rfl, rfl⟩

theorem test_witness_BusWriteIsRegWrite :
    ∃ s : State, s.params.valid = true ∧ s.inbox = .packet (accessPacket ⟨.fbctl, true, 8, 0x0F⟩ 9) :: [] :=
  ⟨withAccess ⟨.fbctl, true, 8, 0x0F⟩ 9, by decide, rfl⟩

/-- The first offset outside a window. -/
theorem test_witness_OutOfRangeRead :
    let s := withAccess ⟨.power, false, 4, 0x10⟩ 0
    s.params.valid = true ∧ s.halted = false ∧
    s.inbox = .packet (accessPacket ⟨.power, false, 4, 0x10⟩ 0) :: [] ∧ s.params.window .power ≤ (0x10 : Word).toNat :=
  ⟨by decide, rfl, rfl, by decide⟩

theorem test_witness_OutOfRangeWrite :
    let s := withAccess ⟨.st, true, 4, 0x20⟩ 0xF
    s.params.valid = true ∧ s.halted = false ∧
    s.inbox = .packet (accessPacket ⟨.st, true, 4, 0x20⟩ 0xF) :: [] ∧ s.params.window .st ≤ (0x20 : Word).toNat :=
  ⟨by decide, rfl, rfl, by decide⟩

/-- The last offset inside a window, misaligned; and a wrong width at an aligned offset. -/
theorem test_witness_WrongWidthOrAlignment :
    let a : Access := ⟨.st, false, 4, 0x1F⟩
    let b : Access := ⟨.power, true, 1, 0x00⟩
    (withAccess a 0).params.valid = true ∧ (withAccess a 0).halted = false ∧
    (withAccess a 0).inbox = .packet (accessPacket a 0) :: [] ∧ a.off.toNat < (withAccess a 0).params.window a.dev ∧
    a.off.toNat % 4 ≠ 0 ∧ b.off.toNat < (withAccess b 0).params.window b.dev ∧ b.size ≠ 4 :=
  ⟨by decide, rfl, rfl, by decide, by decide, by decide, by decide⟩

/-- The first hole of each window. -/
theorem test_witness_HoleInWindow :
    let a : Access := ⟨.st, false, 4, 0x1C⟩
    let b : Access := ⟨.fbctl, true, 4, 0x08⟩
    (withAccess a 0).params.valid = true ∧ (withAccess a 0).halted = false ∧
    (withAccess a 0).inbox = .packet (accessPacket a 0) :: [] ∧ a.off.toNat < (withAccess a 0).params.window a.dev ∧
    a.off.toNat % 4 = 0 ∧ (0x1C ≤ a.off.toNat) ∧ b.off.toNat < (withAccess b 0).params.window b.dev ∧
    b.off.toNat % 4 = 0 ∧ 0x08 ≤ b.off.toNat :=
  ⟨by decide, rfl, rfl, by decide, by decide, by decide, by decide, by decide, by decide⟩

/-- A halted state, and one whose step has a successor. -/
theorem test_witness_HaltedPlatform :
    let s := { withPacket (tablePacket 0xE000000000) with halted := true }
    s.halted = true ∧ ∃ t, step s = .next t := ⟨rfl, _, rfl⟩

/-- A VRAM origin with a bank bit breaks R8; an invalid word stands at the head of an inbox. -/
theorem test_witness_InvalidConfigurationOrWord :
    ({ Params.default with vramOrigin := 0x40000000 } : Params).valid = false ∧
    (withPacket (tablePacket 0x8400000000)).params.valid = true ∧
    (withPacket (tablePacket 0x8400000000)).inbox = .packet (tablePacket 0x8400000000) :: [] ∧
    decode (tablePacket 0x8400000000) = .error .noSuchDevice :=
  ⟨by decide, by decide, rfl, rfl⟩

/-- U9: a window whose last byte alone is an alias of RAM; and a window over an alias of VRAM where there is no RAM. -/
theorem test_witness_InvalidConfiguration_window :
    let p : Params := { Params.default with basePower := 0x3FFFFFF1 }
    let q : Params := { Params.default with baseSt := 0x5C000000, ram := [] }
    0xF < p.window .power ∧ p.isRam (p.baseOf .power + BitVec.ofNat 32 0xF) = true ∧
    p.isRam (p.baseOf .power + BitVec.ofNat 32 0xE) = false ∧ p.valid = false ∧
    0 < q.window .st ∧ q.isRam (q.baseOf .st + BitVec.ofNat 32 0) = false ∧
    q.isVram (q.baseOf .st + BitVec.ofNat 32 0) = true ∧ q.valid = false := by decide

/-- Log 26: a window whose last eight bytes wrap to address 0 meets a range there, and a range that wraps meets it. -/
theorem test_ranges_wrap :
    rangesMeet 0xFFFFFFF8 0x10 0x7 1 = true ∧ rangesMeet 0xFFFFFFF8 0x10 0x8 1 = false ∧
    rangesMeet 0xFFFFFFF0 0x10 0xFFFFFFEF 1 = false ∧ rangesMeet 0x1000 0 0x1000 4 = false := by decide

/-- Log 27: an empty VRAM region is a valid configuration, and a geometry of size 0 fits in it. -/
theorem test_empty_vram :
    ({ Params.default with vramSize := 0 } : Params).valid = true ∧ geometryFits 0 640 0 = true ∧
    geometryFits 0 1 1 = false := by decide

/-- The one hypothesis of the register and event statements: the platform runs. -/
theorem test_witness_running : State.reset.halted = false ∧ busy.halted = false ∧ running.halted = false := by decide

/-- Pushes. -/
theorem test_witness_ReentrantPush : busy.halted = false ∧ busy.fbctl.pending = true := by decide

theorem test_witness_WrongDepth :
    p4.halted = false ∧ p4.fbctl.pending = false ∧ p4.params.touchesSomeWindow (descriptorAddr 0x3000) 40 = false ∧
    memRead p4 (descriptorAddr 0x3000 + 20) = 32 := by decide +kernel

/-- F1's last rows: the pitch does not fit; the size exceeds the region by one scanline. -/
theorem test_witness_Oversize_pitch :
    let s := asking 0x80000000 0
    s.halted = false ∧ s.fbctl.pending = false ∧ s.params.touchesSomeWindow (descriptorAddr 0x3000) 40 = false ∧
    memRead s (descriptorAddr 0x3000 + 20) = 16 ∧ (memRead s (descriptorAddr 0x3000)).toNat * 2 > 0xFFFFFFFF := by
  decide +kernel

theorem test_witness_Oversize_region :
    let s := asking 4096 8193
    s.params.touchesSomeWindow (descriptorAddr 0x3000) 40 = false ∧ memRead s (descriptorAddr 0x3000 + 20) = 16 ∧
    (memRead s (descriptorAddr 0x3000 + 4)).toNat * ((memRead s (descriptorAddr 0x3000)).toNat * 2) >
      s.params.vramSize := by decide +kernel

theorem s6_accepted : PushAccepted s6 (descriptorAddr 0x1000) :=
  ⟨by decide +kernel, by decide +kernel, by decide +kernel, by decide +kernel⟩

theorem test_witness_AcceptedPush :
    s6.halted = false ∧ s6.fbctl.pending = false ∧ s6.mem.wf = true ∧ PushAccepted s6 (descriptorAddr 0x1000) :=
  ⟨rfl, rfl, by decide +kernel, s6_accepted⟩

/-- F1: a size equal to the region's, and a width of zero, are accepted. -/
theorem test_witness_AcceptedPush_bounds :
    PushAccepted (asking 4096 8192) (descriptorAddr 0x3000) ∧ PushAccepted (asking 0 480) (descriptorAddr 0x3000) := by
  constructor <;> exact ⟨by decide +kernel, by decide +kernel, by decide +kernel, by decide +kernel⟩

theorem test_witness_WriteBack :
    s6.halted = false ∧ s6.fbctl.pending = false ∧ PushAccepted s6 (descriptorAddr 0x1000) ∧ s6.mem.wf = true ∧
    banksAreHigh s6.params = true ∧ ∀ k : Word, k.toNat < 40 → s6.params.isRam (descriptorAddr 0x1000 + k) = true := by
  refine ⟨rfl, rfl, s6_accepted, by decide +kernel, by decide +kernel, fun k hk => ?_⟩
  have all : ∀ n < 40, s6.params.isRam (descriptorAddr 0x1000 + BitVec.ofNat 32 n) = true := by decide +kernel
  simpa using all k.toNat hk

/-- The bytes just outside the three words, and an alias of one. -/
theorem test_witness_PushWritesOnlyThreeWords :
    ([0x100F, 0x1014, 0x101F, 0x1028, 0x4000100F] : List Word).all (fun b =>
      !inWord s6.params (descriptorAddr 0x1000 + offPitch) b && !inWord s6.params (descriptorAddr 0x1000 + offBase) b &&
      !inWord s6.params (descriptorAddr 0x1000 + offSize) b) = true := by decide +kernel

theorem test_witness_PushTag : (0x1000 : Word) &&& 0xFFFFFFF0 = 0x100F &&& 0xFFFFFFF0 := by decide

/-- A buffer as long as the region. -/
theorem test_witness_PlacedBase : Params.default.valid = true ∧ 0x04000000 ≤ Params.default.vramSize := by decide

theorem test_witness_VramRegion :
    State.reset.params.valid = true ∧ State.reset.params.vramOrigin.toNat ≤ (0x1FFFFFFF : Word).toNat ∧
    (0x1FFFFFFF : Word).toNat < State.reset.params.vramOrigin.toNat + State.reset.params.vramSize := by decide

theorem test_witness_Refresh : running.halted = false ∧ running.fb.enabled = true ∧ GeometryExact running :=
  ⟨rfl, rfl, running_inv.2.2.2.1⟩

theorem test_witness_MemRead :
    running.mem.wf = true ∧ banksAreHigh running.params = true ∧ wordIsRam running.params 0x1FFFFFFC = true ∧
    wordIsRam running.params 0x40000FFD = true := by decide

/-- The timer: T1, T3, P5 step 3, T5, and the hazard R268. -/
theorem test_witness_Reschedule :
    t1.eligible 3 = true ∧ ({ t1 with matched := 0xF } : Timer).matched = 0xF ∧
    ∀ i, ({ t1 with matched := 0xF } : Timer).eligible i = false := by decide

theorem test_witness_ZeroDelta :
    let t : Timer := ⟨0xFFFFFFF0, ⟨5, 5, 0xFFFFFFF0, 0⟩, 0, 0, none, ⟨false, false, false, false⟩⟩
    let s := withTimer t.reschedule
    s.halted = false ∧ s.st = t.reschedule ∧ s.st.eligible 2 = true ∧ s.st.compare.get 2 = low32 s.st.counter ∧
    t.reschedule.wake = some t.counter := by decide

theorem test_witness_Advance :
    (withTimer armed).halted = false ∧ (withTimer armed).st.wake ≠ some (withTimer armed).st.counter ∧
    State.reset.st.wake = some State.reset.st.counter := by decide

theorem test_witness_Tick :
    (withTimer t5).halted = false ∧ (withTimer t5).st.wake = some (withTimer t5).st.counter ∧ TimerArmed (withTimer t5).st ∧
    (withTimer t5).st.isMatched 0 = false ∧ (withTimer t5).st.compare.get 0 = (withTimer t5).st.next ∧
    (withTimer t5).st.isMatched 3 = true ∧ (withTimer t5).st.compare.get 2 ≠ (withTimer t5).st.next :=
  ⟨rfl, by decide, t5_timerArmed, by decide, by decide, by decide, by decide⟩

theorem test_witness_AcknowledgeAtMatchingCount :
    (withTimer { t6 with counter := 2000 }).halted = false ∧ (withTimer { t6 with counter := 2000 }).st.isMatched 2 = true ∧
    (0x4 : Word).getLsbD (2 : Fin 4).val = true ∧
    (withTimer { t6 with counter := 2000 }).st.compare.get 2 = low32 (withTimer { t6 with counter := 2000 }).st.counter := by
  decide

theorem test_witness_Restore :
    busy.halted = false ∧ (⟨⟨1500, 0, 0, 0⟩, 0xF⟩ : SaveRecord).wellFormed = true := by decide

/-- The invariant and the whole-machine rules. -/
theorem test_witness_StepKeepsTheInvariant : Inv running ∧ ∃ t, step running = .next t := ⟨running_inv, _, rfl⟩

theorem test_witness_OnlyTheClock :
    ∃ t, exec .evTick State.reset = .next t ∧ Instr.evTick ≠ .evAdvance ∧ Instr.evTick ≠ .evReset ∧
      ∀ r c, Instr.evTick ≠ .evRestore r c :=
  ⟨_, rfl, by decide, by decide, fun _ _ => by simp⟩

theorem test_witness_OnlyItsOwnWrite :
    ∃ t, exec (.stWrCmp2 7) State.reset = .next t ∧ Instr.stWrCmp2 7 ≠ .evReset ∧ t.st.compare.c2 ≠ State.reset.st.compare.c2 :=
  ⟨_, rfl, by decide, by decide⟩

/-- A bit that rises and a bit that falls. -/
theorem test_witness_MatchBit :
    TimerArmed (withTimer t5).st ∧
    (∃ t, exec .evTick (withTimer t5) = .next t ∧ (withTimer t5).st.isMatched 1 = false ∧ t.st.isMatched 1 = true) ∧
    (∃ t, exec (.stWrMatch 8) (withTimer t5) = .next t ∧ (withTimer t5).st.isMatched 3 = true ∧ t.st.isMatched 3 = false) :=
  ⟨t5_timerArmed, ⟨_, rfl, by decide, by decide⟩, ⟨_, rfl, by decide, by decide⟩⟩

theorem test_witness_EachComponent :
    ∃ t, exec (.mboxWrCmdPower 0) State.reset = .next t ∧ Instr.mboxWrCmdPower 0 ≠ .evReset ∧ t.power ≠ State.reset.power :=
  ⟨_, rfl, by decide, by decide⟩

theorem test_witness_GuestErrorsAppend :
    ∃ t, exec (.stWrCntLo 0) State.reset = .next t ∧ t.gerr = State.reset.gerr ++ [⟨.st, .undef, 4⟩] := ⟨_, rfl, rfl⟩

/-- Two eligible channels with the largest and the smallest delta; a deadline ahead of the counter. -/
theorem test_witness_FreeRun :
    (withTimer armed).params.valid = true ∧ (withTimer armed).halted = false ∧ (withTimer armed).inbox = [] ∧
    TimerArmed (withTimer armed).st ∧ (withTimer armed).st.eligible 1 = true ∧ (withTimer armed).st.eligible 3 = true ∧
    (withTimer armed).st.wake = some 2000 :=
  ⟨by decide, rfl, rfl, armed_timerArmed, by decide, by decide, rfl⟩

theorem test_witness_FreeRun_at_reset :
    State.reset.inbox = [] ∧ TimerArmed State.reset.st ∧ State.reset.st.eligible 0 = true ∧ State.reset.st.wake = some 0 :=
  ⟨rfl, reset_timerArmed, by decide, rfl⟩

end Sys2Proof.Tests
end

section
/-! SUPPORT. The bank bits of an address range (00_scope.md R8): the lowest bit of a mask, the addresses that share every
bit from it up, and the VRAM region, which is too short to reach past the block after its first. -/

namespace Sys2Proof

/-- `m &&& -m` keeps the lowest set bit of `m` alone. -/
theorem and_neg_eq_twoPow_ctz {w : Nat} {m : BitVec w} (h : m ≠ 0#w) : m &&& -m = BitVec.twoPow w m.ctz.toNat := by
  have hset := BitVec.getLsbD_true_ctz_of_ne_zero h
  refine BitVec.eq_of_getLsbD_eq fun i hi => ?_
  rw [BitVec.getLsbD_and, BitVec.getLsbD_neg, BitVec.getLsbD_twoPow]
  rcases Nat.lt_trichotomy i m.ctz.toNat with hlt | heq | hgt
  · simp [BitVec.getLsbD_false_of_lt_ctz hlt, Nat.ne_of_gt hlt]
  · subst heq
    have hlow : ¬∃ j < m.ctz.toNat, m.getLsbD j = true := by
      rintro ⟨j, hj, hmj⟩
      simp [BitVec.getLsbD_false_of_lt_ctz hj] at hmj
    rw [decide_eq_false hlow, hset]
    simp [hi]
  · have hlow : ∃ j < i, m.getLsbD j = true := ⟨_, hgt, hset⟩
    simp [hlow, hi, Nat.ne_of_lt hgt]

theorem toNat_and_neg {w : Nat} {m : BitVec w} (h : m ≠ 0#w) : (m &&& -m).toNat = 2 ^ m.ctz.toNat := by
  rw [and_neg_eq_twoPow_ctz h,
    BitVec.toNat_twoPow_of_lt (BitVec.lt_of_getLsbD (BitVec.getLsbD_true_ctz_of_ne_zero h))]

/-- Two words in one block of the mask's lowest bit have the same bits of the mask. -/
theorem and_eq_zero_of_same_block {w : Nat} {a b m : BitVec w} (hab : a.toNat / 2 ^ m.ctz.toNat = b.toNat / 2 ^ m.ctz.toNat)
    (hb : b &&& m = 0#w) : a &&& m = 0#w := by
  refine BitVec.eq_of_getLsbD_eq fun i _ => ?_
  by_cases hi : i < m.ctz.toNat
  · simp [BitVec.getLsbD_false_of_lt_ctz hi]
  · obtain ⟨j, rfl⟩ := Nat.exists_eq_add_of_le' (Nat.not_lt.mp hi)
    have hbit : a.getLsbD (j + m.ctz.toNat) = b.getLsbD (j + m.ctz.toNat) := by
      simp only [BitVec.getLsbD, ← Nat.testBit_div_two_pow, hab]
    rw [BitVec.getLsbD_and, hbit, ← BitVec.getLsbD_and, hb]

/-- A range no longer than a block lies in the block of its first number and the block of its last. -/
theorem block_of_first_or_last {o a n b : Nat} (hn : n ≤ b) (ho : o ≤ a) (ha : a < o + n) :
    a / b = o / b ∨ a / b = (o + (n - 1)) / b := by
  have hfirst : o / b ≤ a / b := Nat.div_le_div_right ho
  have hlast : a / b ≤ (o + (n - 1)) / b := Nat.div_le_div_right (by omega)
  have hnext : (o + (n - 1)) / b ≤ o / b + 1 := by
    rw [← Nat.add_div_right o (show 0 < b by omega)]
    exact Nat.div_le_div_right (by omega)
  omega

/-- The closed form of `vramUnbanked` covers every address of a region that ends by 2^32 (log 18). -/
theorem vramUnbanked_sound {p : Params} {a : Word} (hp : p.vramUnbanked = true)
    (hend : p.vramOrigin.toNat + p.vramSize ≤ 2 ^ 32) (ho : p.vramOrigin.toNat ≤ a.toNat)
    (ha : a.toNat < p.vramOrigin.toNat + p.vramSize) : a &&& p.bankMask = 0#32 := by
  simp only [Params.vramUnbanked, Bool.and_eq_true, Bool.or_eq_true, decide_eq_true_eq] at hp
  obtain ⟨hfirst, (hmask | hempty) | ⟨hlast, hshort⟩⟩ := hp
  · simp [hmask]
  · omega
  · by_cases hmask : p.bankMask = 0#32
    · simp [hmask]
    · rw [toNat_and_neg hmask] at hshort
      have hlastNat : (p.vramOrigin + BitVec.ofNat 32 (p.vramSize - 1)).toNat
          = p.vramOrigin.toNat + (p.vramSize - 1) := by
        rw [BitVec.toNat_add, BitVec.toNat_ofNat]
        omega
      rcases block_of_first_or_last hshort ho ha with hblock | hblock
      · exact and_eq_zero_of_same_block hblock hfirst
      · exact and_eq_zero_of_same_block (hblock.trans (by rw [hlastNat])) hlast

end Sys2Proof
end

section
/-! SUPPORT. What one step answers before any action runs: to parameters that are not valid (00_scope.md R8), and to a
packet that the decoder rejects (30_encoding.md R102). -/

namespace Sys2Proof.Machine

theorem step_of_invalid {s : State} (h : s.params.valid = false) : step s = .refused .badConfiguration := by
  simp [step, runNext, h]

theorem step_rejectedPacket {s : State} {p : Packet} {rest : List Stimulus} {e : DecodeError}
    (hv : s.params.valid = true) (hi : s.inbox = .packet p :: rest) (hd : decode p = .error e) :
    step s = .refused (refusalOf e) := by
  simp [step, runNext, hv, hi, runPacket, hd]

/-- Parameters with a window address over guest RAM or VRAM are not valid (93_implementation_defined.md U9). -/
theorem invalid_of_window_over_memory {p : Params} {d : Device} {k : Nat} (hk : k < p.window d)
    (h : p.isRam (p.baseOf d + BitVec.ofNat 32 k) = true ∨ p.isVram (p.baseOf d + BitVec.ofNat 32 k) = true) :
    p.valid = false := by
  cases hv : p.valid with
  | false => rfl
  | true =>
    obtain ⟨hram, hvram⟩ := window_address_clear hv hk
    simp [hram, hvram] at h

end Sys2Proof.Machine
end

section
/-! The obligations of 00_scope.md. -/

namespace Sys2Proof.Scope

/-- Settles O30: an address of the region shares every bit from the lowest bank bit up with an end of the region. -/
theorem vramRegionHasNoBankBit : Obligations.VramRegionHasNoBankBit := by
  unfold Obligations.VramRegionHasNoBankBit
  intro p a hv ho ha
  simp only [Params.valid, Bool.and_eq_true, decide_eq_true_eq] at hv
  obtain ⟨-, -, -, hend, hunbanked, -⟩ := hv
  exact vramUnbanked_sound hunbanked hend ho ha

/-- Settles O13: a window over guest RAM or VRAM makes the parameters invalid, and the step looks at them first. -/
theorem invalidConfigurationOrWordIsRefused : Obligations.InvalidConfigurationOrWordIsRefused :=
  ⟨fun _ => Machine.step_of_invalid,
    fun _ _ _ hk h => Machine.step_of_invalid (Machine.invalid_of_window_over_memory hk h),
    fun _ _ _ _ => Machine.step_rejectedPacket⟩

end Sys2Proof.Scope
end

section
/-! SUPPORT. What a row can do to the state: one inversion lemma for `exec` (`exec_effect`), from which the rules of
10_state.md about every row are read off, and one for `step` (`step_cases`). -/

namespace Sys2Proof.Machine

/-! ### The kinds of effect -/

/-- The row `ST.WR_CMPk` (42_system_timer.md R170). -/
def compareWrite (k : Fin 4) (w : Word) : Instr :=
  match k with
  | 0 => .stWrCmp0 w
  | 1 => .stWrCmp1 w
  | 2 => .stWrCmp2 w
  | 3 => .stWrCmp3 w

/-- The rows that write the channel of a mailbox device: its command and its identity read (10_state.md R20). -/
def OwnsChannel (i : Instr) : Mailbox → Prop
  | .power => i = .mboxRdIdPower ∨ ∃ w, i = .mboxWrCmdPower w
  | .fbctl => i = .fbRdId ∨ ∃ w, i = .fbWrCmd w
  | .vchiq => i = .mboxRdIdVchiq ∨ ∃ w, i = .mboxWrCmdVchiq w

/-- What a row that writes the timer leaves of the timer `t`, reset and restore apart. -/
inductive TimerStep (t : Timer) : Instr → Timer → Prop
  /-- ST.WR_MATCH (R165) -/
  | acknowledge (w : Word) : TimerStep t (.stWrMatch w) (t.acknowledge (ackMask w)).reschedule
  /-- ST.WR_CMPk (R170) -/
  | retarget (k : Fin 4) (w : Word) : TimerStep t (compareWrite k w) (t.setCompare k w)
  /-- EV.ADVANCE, while no tick is due (R171) -/
  | count (h : t.tickDue = false) : TimerStep t .evAdvance { t with counter := t.counter + 1 }
  /-- EV.TICK, when it is due (R172) -/
  | fire (h : t.tickDue = true) : TimerStep t .evTick (Timer.fire { t with wake := none }).reschedule

/-- What a row that answers a next state leaves of the state `s`. -/
inductive RowEffect (s : State) : Instr → State → Prop
  /-- nothing but an answer -/
  | answers (i : Instr) (o : Response) : RowEffect s i { s with out := o }
  /-- a guest-protocol error (60_exceptions.md R234) -/
  | reports (i : Instr) (e : GuestError) (o : Response) : RowEffect s i { s with gerr := s.gerr ++ [e], out := o }
  /-- a doorbell set or cleared, its line with it (41_mailbox_channel.md R141, R142) -/
  | rings {i : Instr} {d : Mailbox} (own : OwnsChannel i d) (b : Bool) (o : Response) :
      RowEffect s i { s.setChannel d ⟨b, b⟩ with out := o }
  /-- a write or an event of the timer -/
  | times {i : Instr} {t : Timer} (h : TimerStep s.st i t) : RowEffect s i { s with st := t, out := .none }
  /-- a refresh of an enabled framebuffer (43_framebuffer.md R203) -/
  | repaints (ok b : Bool) (o : Response) :
      RowEffect s (.evRefresh ok) { s with fb := { s.fb with invalidate := b }, out := o }
  /-- a fatal push (R208) -/
  | halts (w : Word) (e : FatalError) : RowEffect s (.fbWrCmd w) (fatalPush s (descriptorAddr w) e)
  /-- an accepted push (R193 to R200) -/
  | configures (w : Word) (hbpp : (latchRequest s (descriptorAddr w)).bpp = 16)
      (hfits : geometryFits s.params.vramSize (latchRequest s (descriptorAddr w)).xres
        (latchRequest s (descriptorAddr w)).yres = true) :
      RowEffect s (.fbWrCmd w) (acceptedPush s (descriptorAddr w))
  /-- EV.RESET (70_reset_and_hazards.md R260) -/
  | resets : RowEffect s .evReset (resetWith s (Timer.initial s.params.t0).reschedule)
  /-- EV.RESTORE (44_host_operations.md R221) -/
  | restores (r : SaveRecord) (c : Count) : RowEffect s (.evRestore r c) (resetWith s (restoreTimer r c))

/-! ### Every row has one of them -/

section effect
variable {s t : State} {i : Instr}

theorem mailboxCommand_effect {d : Mailbox} {w : Word} (own : OwnsChannel i d)
    (h : mailboxCommand d w s = .next t) : RowEffect s i t := by
  rw [mailboxCommand, whenRunning_eq_next, done_eq_next] at h
  exact h.2 ▸ .rings own true .none

theorem mailboxIdentity_effect {d : Mailbox} (own : OwnsChannel i d)
    (h : mailboxIdentity d s = .next t) : RowEffect s i t := by
  rw [mailboxIdentity, whenRunning_eq_next, reply_eq_next] at h
  exact h.2 ▸ .rings own false _

/-- Every register read but an identity read is a gated reply. -/
theorem reply_effect {v : Word} (h : whenRunning s (reply s v) = .next t) : RowEffect s i t := by
  rw [whenRunning_eq_next, reply_eq_next] at h
  exact h.2 ▸ .answers i _

theorem writeReadOnly_effect {d : Device} {off : Word} (h : writeReadOnly d off s = .next t) : RowEffect s i t := by
  rw [writeReadOnly, whenRunning_eq_next, rejectWrite_eq_next] at h
  exact h.2 ▸ .reports i _ _

theorem writeCompare_effect {k : Fin 4} {w : Word} (h : writeCompare k w s = .next t) :
    RowEffect s (compareWrite k w) t := by
  rw [writeCompare, whenRunning_eq_next, done_eq_next] at h
  exact h.2 ▸ .times (.retarget k w)

theorem execStWrMatch_effect {w : Word} (h : execStWrMatch w s = .next t) : RowEffect s (.stWrMatch w) t := by
  rw [execStWrMatch, whenRunning_eq_next, done_eq_next] at h
  exact h.2 ▸ .times (.acknowledge w)

theorem execEvAdvance_effect (h : execEvAdvance s = .next t) : RowEffect s .evAdvance t := by
  rw [execEvAdvance, whenRunning_eq_next] at h
  cases hdue : s.st.tickDue
  · simp only [hdue, Bool.false_eq_true, if_false, done_eq_next] at h
    exact h.2 ▸ .times (.count hdue)
  · simp [hdue] at h

theorem execEvTick_effect (h : execEvTick s = .next t) : RowEffect s .evTick t := by
  rw [execEvTick, whenRunning_eq_next] at h
  cases hdue : s.st.tickDue
  · simp [hdue] at h
  · simp only [hdue, if_true, done_eq_next] at h
    exact h.2 ▸ .times (.fire hdue)

theorem execFbWrCmd_effect {w : Word} (h : execFbWrCmd w s = .next t) : RowEffect s (.fbWrCmd w) t := by
  obtain ⟨-, ⟨-, rfl⟩ | ⟨-, e, rfl⟩ | ⟨-, hbpp, hfits, rfl⟩⟩ := push_cases h
  · exact .reports _ _ _
  · exact .halts w e
  · exact .configures w hbpp hfits

theorem execEvRefresh_effect {ok : Bool} (h : execEvRefresh ok s = .next t) : RowEffect s (.evRefresh ok) t := by
  rw [execEvRefresh, whenRunning_eq_next] at h
  obtain ⟨-, h⟩ := h
  split at h
  · cases h; exact .repaints ok _ _
  · rw [done_eq_next] at h; exact h ▸ .answers _ _

theorem execEvSave_effect (h : execEvSave s = .next t) : RowEffect s .evSave t := by
  rw [execEvSave, whenRunning_eq_next] at h
  cases h.2
  exact .answers _ _

theorem execEvRestore_effect {r : SaveRecord} {c : Count} (h : execEvRestore r c s = .next t) :
    RowEffect s (.evRestore r c) t := by
  rw [execEvRestore, whenRunning_eq_next] at h
  obtain ⟨-, h⟩ := h
  split at h
  · cases h; exact .restores r c
  · cases h

/-- All that a row which answers a next state can do. -/
theorem exec_effect (h : exec i s = .next t) : RowEffect s i t := by
  cases i with
  | mboxWrCmdPower w => exact mailboxCommand_effect (d := .power) (w := w) (.inr ⟨w, rfl⟩) h
  | mboxWrCmdVchiq w => exact mailboxCommand_effect (d := .vchiq) (w := w) (.inr ⟨w, rfl⟩) h
  | mboxRdIdPower => exact mailboxIdentity_effect (d := .power) (.inl rfl) h
  | mboxRdIdVchiq => exact mailboxIdentity_effect (d := .vchiq) (.inl rfl) h
  | fbRdId => exact mailboxIdentity_effect (d := .fbctl) (.inl rfl) h
  | mboxRdStatusPower | mboxRdStatusVchiq | fbRdStatus | stRdMatch | stRdCntLo | stRdCntHi
  | stRdCmp0 | stRdCmp1 | stRdCmp2 | stRdCmp3 => exact reply_effect h
  | mboxWrStatusPower | mboxWrStatusVchiq | fbWrStatus | stWrCntLo | stWrCntHi => exact writeReadOnly_effect h
  | stWrCmp0 w => exact writeCompare_effect (k := 0) h
  | stWrCmp1 w => exact writeCompare_effect (k := 1) h
  | stWrCmp2 w => exact writeCompare_effect (k := 2) h
  | stWrCmp3 w => exact writeCompare_effect (k := 3) h
  | fbWrCmd => exact execFbWrCmd_effect h
  | stWrMatch => exact execStWrMatch_effect h
  | evReset => cases h; exact .resets
  | evAdvance => exact execEvAdvance_effect h
  | evTick => exact execEvTick_effect h
  | evRefresh => exact execEvRefresh_effect h
  | evSave => exact execEvSave_effect h
  | evRestore => exact execEvRestore_effect h

/-- A step that answers a next state ran a row, rejected a reserved transaction, or stored the guest's bytes, and the
parameters are valid (20_memory.md R71 to R73). -/
theorem step_cases (h : step s = .next t) :
    s.params.valid = true ∧ ∃ rest : List Stimulus,
      (∃ i, exec i { s with inbox := rest } = .next t) ∨
      (∃ a, runReserved a { s with inbox := rest } = .next t) ∨
      (∃ a bytes, runGuestStore a bytes { s with inbox := rest } = .next t) := by
  unfold step runNext at h
  split at h
  case isFalse => cases h
  case isTrue hv =>
    refine ⟨hv, ?_⟩
    split at h
    · refine ⟨s.inbox, .inl ?_⟩
      unfold freeRun at h
      split at h <;> exact ⟨_, h⟩
    · rename_i p rest _
      unfold runPacket at h
      split at h
      · rename_i d _
        unfold runHead at h
        split at h
        · exact ⟨s.inbox, .inl ⟨_, h⟩⟩
        · cases d with
          | row i => exact ⟨rest, .inl ⟨i, h⟩⟩
          | reserved a => exact ⟨rest, .inr (.inl ⟨a, h⟩)⟩
      · cases h
    · rename_i a bytes rest _
      exact ⟨rest, .inr (.inr ⟨a, bytes, h⟩)⟩

theorem runReserved_eq_next {a : Access} (h : runReserved a s = .next t) :
    ∃ e o, t = { s with gerr := s.gerr ++ [e], out := o } := by
  rw [runReserved, whenRunning_eq_next] at h
  obtain ⟨-, h⟩ := h
  split at h
  · exact ⟨_, _, rejectWrite_eq_next.mp h⟩
  · exact ⟨_, _, rejectRead_eq_next.mp h⟩

theorem runGuestStore_eq_next {a : Word} {bytes : List Byte} (h : runGuestStore a bytes s = .next t) :
    t = { s with mem := s.mem.putBytes s.params a bytes, out := .none } := by
  rw [runGuestStore, whenRunning_eq_next] at h
  obtain ⟨-, h⟩ := h
  split at h
  · cases h
  · exact done_eq_next.mp h

end effect

/-! ### What a row does to the timer -/

section timer
variable {t u : Timer} {i : Instr}

/-! A compare write changes its own target and the deadline (R170). -/

@[simp] theorem setCompare_counter (k : Fin 4) (w : Word) : (t.setCompare k w).counter = t.counter :=
  reschedule_counter _
@[simp] theorem setCompare_compare (k : Fin 4) (w : Word) : (t.setCompare k w).compare = t.compare.set k w :=
  reschedule_compare _
@[simp] theorem setCompare_lines (k : Fin 4) (w : Word) : (t.setCompare k w).lines = t.lines := reschedule_lines _
@[simp] theorem setCompare_isMatched (k j : Fin 4) (w : Word) : (t.setCompare k w).isMatched j = t.isMatched j :=
  reschedule_isMatched _ j

/-- Only EV.ADVANCE counts (10_state.md R26). -/
theorem TimerStep.counter_eq (h : TimerStep t i u) (hi : i ≠ .evAdvance) : u.counter = t.counter := by
  cases h with
  | acknowledge => simp
  | retarget => simp
  | count => exact absurd rfl hi
  | fire => simp

/-- A target changes only by its own write (R21). -/
theorem TimerStep.compare_get_eq (h : TimerStep t i u) {k : Fin 4} (hi : ∀ w, i ≠ compareWrite k w) :
    u.compare.get k = t.compare.get k := by
  cases h with
  | acknowledge => simp
  | retarget j w =>
    have hjk : j ≠ k := fun e => hi w (e ▸ rfl)
    simp [Quad_get_set_of_ne _ _ _ _ hjk]
  | count => rfl
  | fire => simp

/-- A match bit rises only in the tick at its target's count, and its line with it (R28). -/
theorem TimerStep.rises (h : TimerStep t i u) (harmed : TimerArmed t) {k : Fin 4} (h0 : t.isMatched k = false)
    (h1 : u.isMatched k = true) :
    i = .evTick ∧ t.compare.get k = low32 t.counter ∧ u.lines.get k = true := by
  cases h with
  | acknowledge => simp [acknowledge_isMatched, h0] at h1
  | retarget => simp [h0] at h1
  | count => exact absurd (h0.symm.trans h1) (by decide)
  | fire hdue =>
    have hnext : t.next = low32 t.counter := TimerArmed_next_of_due harmed (of_decide_eq_true hdue)
    have h0' : ({ t with wake := none } : Timer).isMatched k = false := h0
    have htarget : t.compare.get k = t.next := by simpa [fire_isMatched, h0'] using h1
    refine ⟨rfl, htarget.trans hnext, ?_⟩
    rw [reschedule_lines, fire_lines_get, if_pos ⟨h0', htarget⟩]

theorem ackMask_getLsbD (w : Word) (k : Fin 4) : (ackMask w).getLsbD k.val = w.getLsbD k.val := by
  simp [ackMask]

/-- A match bit falls only by an acknowledge of it (42_system_timer.md R180(c)). -/
theorem TimerStep.falls (h : TimerStep t i u) {k : Fin 4} (h1 : t.isMatched k = true) (h0 : u.isMatched k = false) :
    ∃ w, i = .stWrMatch w ∧ w.getLsbD k.val = true := by
  cases h with
  | acknowledge w =>
    refine ⟨w, rfl, ?_⟩
    rw [reschedule_isMatched, acknowledge_isMatched, h1, ackMask_getLsbD] at h0
    simpa using h0
  | retarget => simp [h1] at h0
  | count => exact absurd (h1.symm.trans h0) (by decide)
  | fire =>
    have h1' : ({ t with wake := none } : Timer).isMatched k = true := h1
    simp [fire_isMatched, h1'] at h0

/-- The rows that write the timer, reset and restore apart. -/
theorem TimerStep.row (h : TimerStep t i u) :
    i = .evAdvance ∨ i = .evTick ∨ (∃ w, i = .stWrMatch w) ∨
      ∃ w, i = .stWrCmp0 w ∨ i = .stWrCmp1 w ∨ i = .stWrCmp2 w ∨ i = .stWrCmp3 w := by
  cases h with
  | acknowledge w => exact .inr (.inr (.inl ⟨w, rfl⟩))
  | retarget k w =>
    refine .inr (.inr (.inr ⟨w, ?_⟩))
    match k with
    | 0 => exact .inl rfl
    | 1 => exact .inr (.inl rfl)
    | 2 => exact .inr (.inr (.inl rfl))
    | 3 => exact .inr (.inr (.inr rfl))
  | count => exact .inl rfl
  | fire => exact .inr (.inl rfl)

/-- A row that neither resets nor restores leaves the timer, or takes a timer step. -/
theorem RowEffect.timer {s v : State} (h : RowEffect s i v) (hreset : i ≠ .evReset)
    (hrestore : ∀ r c, i ≠ .evRestore r c) : v.st = s.st ∨ TimerStep s.st i v.st := by
  cases h with
  | times h => exact .inr h
  | resets => exact absurd rfl hreset
  | restores r c => exact absurd rfl (hrestore r c)
  | rings => exact .inl (setChannel_st _ _ _)
  | answers | reports | repaints | halts | configures => exact .inl rfl

end timer

/-! ### The invariant -/

section invariant
variable {s : State} {t u : Timer} {i : Instr}

theorem sub_succ_count (d c : Count) : d - (c + 1) = d - c - 1 := by
  simp only [BitVec.sub_eq_add_neg, BitVec.neg_add, BitVec.add_assoc]

theorem zeroExtend_sub_one {x y : Word} (h : x.toNat + 1 = y.toNat) : y.zeroExtend 64 - 1 = x.zeroExtend 64 := by
  apply BitVec.eq_of_toNat_eq
  have := y.isLt
  simp [BitVec.toNat_sub]
  omega

/-- A count that no tick waits for brings every target and the deadline one count nearer (42_system_timer.md R177). -/
theorem TimerArmed_count (h : TimerArmed t) (hdue : t.tickDue = false) :
    TimerArmed { t with counter := t.counter + 1 } := by
  obtain ⟨harmed, hdisarmed⟩ := h
  refine ⟨fun hm => ?_, hdisarmed⟩
  obtain ⟨d, k, hwake, hlow, hk, hnext, hmin, hdist⟩ := harmed hm
  have hk0 : t.delta k ≠ 0 := by
    intro e
    rw [hnext, show t.compare.get k - low32 t.counter = 0 from e] at hdist
    have hd : d = t.counter := by simpa using BitVec.sub_eq_iff_eq_add.mp hdist
    simp [Timer.tickDue, hwake, hd] at hdue
  have hpos : 0 < (t.delta k).toNat := Nat.pos_of_ne_zero fun e => hk0 (BitVec.eq_of_toNat_eq e)
  have hnearer (j : Fin 4) (hj : t.eligible j = true) :
      (Timer.delta { t with counter := t.counter + 1 } j).toNat + 1 = (t.delta j).toNat := by
    refine delta_succ t.counter (t.compare.get j) fun e => ?_
    have hle := hmin j hj
    rw [show t.delta j = 0 from e] at hle
    exact absurd hle (Nat.not_le.mpr hpos)
  refine ⟨d, k, hwake, hlow, hk, hnext, fun j hj => ?_, ?_⟩
  · have := hmin j hj
    have := hnearer j hj
    have := hnearer k hk
    omega
  · have hk1 := hnearer k hk
    simp only [Timer.delta, ← hnext] at hk1
    rw [sub_succ_count, hdist]
    exact zeroExtend_sub_one hk1

/-- Every timer step keeps the one wake-up armed for the nearest target (10_state.md R32). -/
theorem TimerStep.armed (h : TimerStep t i u) (ht : TimerArmed t) : TimerArmed u := by
  cases h with
  | acknowledge | retarget | fire => exact Timer_reschedule_armed _
  | count hdue => exact TimerArmed_count ht hdue

/-- Every timer step keeps the lines in agreement with the match bits (R33). -/
theorem TimerStep.lines_follow (h : TimerStep t i u) (ht : ∀ j, t.lines.get j = t.isMatched j) (j : Fin 4) :
    u.lines.get j = u.isMatched j := by
  cases h with
  | acknowledge w => simpa using acknowledge_lines t (ackMask w) ht j
  | retarget => simpa using ht j
  | count => exact ht j
  | fire => simpa using fire_lines { t with wake := none } ht j

/-- A doorbell's line moves with its flag, and no other channel moves. -/
theorem LinesFollowFlags_setChannel (h : LinesFollowFlags s) (d : Mailbox) (b : Bool) :
    LinesFollowFlags (s.setChannel d ⟨b, b⟩) := by
  obtain ⟨hchannels, hlines⟩ := h
  refine ⟨fun e => ?_, fun j => ?_⟩
  · by_cases hde : d = e
    · subst hde; simp
    · rw [channel_setChannel_of_ne _ _ _ _ hde]; exact hchannels e
  · rw [setChannel_st]; exact hlines j

theorem Inv_setChannel (h : Inv s) (d : Mailbox) (b : Bool) : Inv (s.setChannel d ⟨b, b⟩) := by
  obtain ⟨hlines, hrest⟩ := h
  refine ⟨LinesFollowFlags_setChannel hlines d b, ?_⟩
  cases d <;> exact hrest

theorem Inv.mem_wf (h : Inv s) : s.mem.wf = true := by
  obtain ⟨-, -, -, -, hmem⟩ := h
  exact hmem

theorem Inv_setTimer (h : Inv s) (hu : TimerStep s.st i u) : Inv { s with st := u } := by
  obtain ⟨⟨hchannels, hlines⟩, harmed, hrest⟩ := h
  exact ⟨⟨hchannels, hu.lines_follow hlines⟩, hu.armed harmed, hrest⟩

/-- A reset or a restore leaves nothing that the invariant speaks of but the timer it gives and memory. -/
theorem Inv_resetWith (hmem : s.mem.wf = true) (harmed : TimerArmed t)
    (hlines : ∀ j, t.lines.get j = t.isMatched j) : Inv (resetWith s t) := by
  refine ⟨⟨fun d => ?_, hlines⟩, harmed, ?_, ?_, hmem⟩
  · rw [resetWith_channel]; rfl
  · intro henabled; cases henabled
  · intro _ henabled; cases henabled

theorem Inv_initial (hmem : s.mem.wf = true) (c : Count) : Inv (resetWith s (Timer.initial c).reschedule) :=
  Inv_resetWith hmem (Timer_reschedule_armed _) fun j => by simp [Timer.initial, Timer.isMatched]

theorem Inv_restore (hmem : s.mem.wf = true) (r : SaveRecord) (c : Count) : Inv (resetWith s (restoreTimer r c)) :=
  Inv_resetWith hmem (Timer_reschedule_armed _) fun j => by
    simp [restoreTimer, linesOf_get, Timer.isMatched]

/-- A fatal push latches the request, which the placement does not read, and halts (R38, R208). -/
theorem Inv_fatalPush (h : Inv s) (a : Word) (e : FatalError) : Inv (fatalPush s a e) := by
  obtain ⟨hlines, harmed, hplaced, -, hmem⟩ := h
  exact ⟨hlines, harmed, hplaced, fun hrunning _ => (by cases hrunning), hmem⟩

/-- The placed base un-banks to the VRAM origin, for the origin has no bank bit (00_scope.md R8). -/
theorem unbank_placed_base {p : Params} (hv : p.valid = true) (a : Word) :
    p.unbank (p.vramOrigin ||| (a &&& p.bankMask)) = p.vramOrigin := by
  simp only [Params.valid, Params.vramUnbanked, Bool.and_eq_true, decide_eq_true_eq] at hv
  obtain ⟨-, -, -, -, ⟨horigin, -⟩, -⟩ := hv
  refine BitVec.eq_of_getLsbD_eq fun i hi => ?_
  have hbit := congrArg (·.getLsbD i) horigin
  simp only [BitVec.getLsbD_and] at hbit
  simp only [Params.unbank, BitVec.getLsbD_and, BitVec.getLsbD_or, BitVec.getLsbD_not, hi]
  cases hm : p.bankMask.getLsbD i <;> simp_all

/-- An accepted push puts the buffer at the VRAM origin under the descriptor's bank (R38). -/
theorem BufferPlaced_acceptedPush (hv : s.params.valid = true) (a : Word) : BufferPlaced (acceptedPush s a) := by
  have hbase := unbank_placed_base hv a
  have horigin := Nat.le_of_eq (congrArg BitVec.toNat hbase)
  exact fun _ => ⟨hbase, fun hpos => Nat.lt_of_le_of_lt horigin (Nat.lt_add_of_pos_right hpos)⟩

/-- What an accepted push latches is the exact geometry of what it asked for (43_framebuffer.md R194 to R196). -/
theorem GeometryExact_acceptedPush {a : Word} (hbpp : (latchRequest s a).bpp = 16)
    (hfits : geometryFits s.params.vramSize (latchRequest s a).xres (latchRequest s a).yres = true) :
    GeometryExact (acceptedPush s a) := by
  obtain ⟨hpitch, hsize, hbound⟩ := geometry_exact hfits
  have hproduct (x y : Word) : exactSize x y = 2 * x.toNat * y.toNat := by
    rw [exactSize, exactPitch, Nat.mul_comm, Nat.mul_comm x.toNat]
  exact fun _ _ => ⟨hbpp, hpitch.trans (Nat.mul_comm _ _), hsize.trans (hproduct _ _),
    Nat.le_trans (Nat.le_of_eq hsize) hbound, rfl⟩

theorem acceptedPush_mem_wf (h : s.mem.wf = true) (a : Word) : (acceptedPush s a).mem.wf = true :=
  putWord_wf _ (putWord_wf _ (putWord_wf _ h _ _ _) _ _ _) _ _ _

theorem Inv_acceptedPush (h : Inv s) (hv : s.params.valid = true) {a : Word} (hbpp : (latchRequest s a).bpp = 16)
    (hfits : geometryFits s.params.vramSize (latchRequest s a).xres (latchRequest s a).yres = true) :
    Inv (acceptedPush s a) := by
  obtain ⟨hlines, harmed, -, -, hmem⟩ := h
  exact ⟨LinesFollowFlags_setChannel hlines .fbctl true, harmed, BufferPlaced_acceptedPush hv a,
    GeometryExact_acceptedPush hbpp hfits, acceptedPush_mem_wf hmem a⟩

/-- Every row keeps the invariant under valid parameters. -/
theorem RowEffect.keeps_Inv {v : State} (h : RowEffect s i v) (hv : s.params.valid = true) (hs : Inv s) : Inv v := by
  cases h with
  | answers | reports | repaints => exact hs
  | rings _ b => exact Inv_setChannel hs _ b
  | times hu => exact Inv_setTimer hs hu
  | halts => exact Inv_fatalPush hs _ _
  | configures _ hbpp hfits => exact Inv_acceptedPush hs hv hbpp hfits
  | resets => exact Inv_initial hs.mem_wf _
  | restores r c => exact Inv_restore hs.mem_wf r c

theorem Inv_putBytes (h : Inv s) (a : Word) (bytes : List Byte) :
    Inv { s with mem := s.mem.putBytes s.params a bytes } := by
  obtain ⟨hlines, harmed, hplaced, hexact, hmem⟩ := h
  exact ⟨hlines, harmed, hplaced, hexact, putBytes_wf _ hmem _ _ _⟩

end invariant

end Sys2Proof.Machine
end

section
/-! SUPPORT. The guest-error list decides nothing (10_state.md R40): every meaning, run on two states that differ only
in that list, gives outcomes that differ only in it. -/

namespace Sys2Proof.Machine

/-- The state with its guest-error list replaced. -/
def State.withErrors (s : State) (g : List GuestError) : State := { s with gerr := g }

/-- The outcomes are the same but for the guest-error list of a next state. -/
def SameButErrors : Result → Result → Prop
  | .next t, r => ∃ g, r = .next (t.withErrors g)
  | .fault f, r => r = .fault f
  | .refused e, r => r = .refused e

section congruence
variable {s : State} {g : List GuestError} {r r' q q' : Result}

theorem SameButErrors.ite {c : Prop} [Decidable c] (hr : SameButErrors r r') (hq : SameButErrors q q') :
    SameButErrors (if c then r else q) (if c then r' else q') := by
  split
  · exact hr
  · exact hq

theorem SameButErrors.whenRunning (h : SameButErrors r r') :
    SameButErrors (whenRunning s r) (whenRunning (s.withErrors g) r') :=
  .ite rfl h

theorem setChannel_withErrors (s : State) (g : List GuestError) (d : Mailbox) (c : Channel) :
    (s.withErrors g).setChannel d c = (s.setChannel d c).withErrors g := by
  cases d <;> rfl

theorem channel_withErrors (s : State) (g : List GuestError) (d : Mailbox) :
    (s.withErrors g).channel d = s.channel d := by
  cases d <;> rfl

end congruence

section rows
variable (s : State) (g : List GuestError)

theorem mailboxCommand_sameButErrors (d : Mailbox) (w : Word) :
    SameButErrors (mailboxCommand d w s) (mailboxCommand d w (s.withErrors g)) := by
  refine .whenRunning ⟨g, ?_⟩
  rw [raiseDoorbell, setChannel_withErrors]
  rfl

theorem mailboxIdentity_sameButErrors (d : Mailbox) :
    SameButErrors (mailboxIdentity d s) (mailboxIdentity d (s.withErrors g)) := by
  refine .whenRunning ⟨g, ?_⟩
  rw [lowerDoorbell, setChannel_withErrors]
  rfl

theorem mailboxStatus_sameButErrors (d : Mailbox) :
    SameButErrors (mailboxStatus d s) (mailboxStatus d (s.withErrors g)) := by
  refine .whenRunning ⟨g, ?_⟩
  rw [channel_withErrors]
  rfl

theorem writeReadOnly_sameButErrors (d : Device) (off : Word) :
    SameButErrors (writeReadOnly d off s) (writeReadOnly d off (s.withErrors g)) :=
  .whenRunning ⟨g ++ [⟨d, .undef, off⟩], rfl⟩

/-- A descriptor is judged, and its buffer placed, by the parameters and memory alone (R192 to R198). -/
theorem configure_sameButErrors (a : Word) : SameButErrors (configure a s) (configure a (s.withErrors g)) :=
  .ite rfl (.ite ⟨g, rfl⟩ (.ite ⟨g, rfl⟩ (.ite rfl ⟨g, rfl⟩)))

theorem execFbWrCmd_sameButErrors (w : Word) : SameButErrors (execFbWrCmd w s) (execFbWrCmd w (s.withErrors g)) :=
  .whenRunning (.ite ⟨g ++ [⟨.fbctl, .reentrant, 0x00⟩], rfl⟩ (configure_sameButErrors s g _))

/-- The outcome of a row does not depend on the guest-error list. -/
theorem exec_sameButErrors (i : Instr) : SameButErrors (exec i s) (exec i (s.withErrors g)) := by
  cases i with
  | mboxWrCmdPower w | mboxWrCmdVchiq w => exact mailboxCommand_sameButErrors s g _ w
  | mboxRdIdPower | mboxRdIdVchiq | fbRdId => exact mailboxIdentity_sameButErrors s g _
  | mboxRdStatusPower | mboxRdStatusVchiq | fbRdStatus => exact mailboxStatus_sameButErrors s g _
  | mboxWrStatusPower | mboxWrStatusVchiq | fbWrStatus | stWrCntLo | stWrCntHi =>
    exact writeReadOnly_sameButErrors s g _ _
  | fbWrCmd w => exact execFbWrCmd_sameButErrors s g w
  | stRdMatch | stRdCntLo | stRdCntHi | stRdCmp0 | stRdCmp1 | stRdCmp2 | stRdCmp3 | stWrMatch | stWrCmp0 | stWrCmp1
  | stWrCmp2 | stWrCmp3 | evSave => exact .whenRunning ⟨g, rfl⟩
  | evAdvance => exact .whenRunning (.ite rfl ⟨g, rfl⟩)
  | evTick => exact .whenRunning (.ite ⟨g, rfl⟩ rfl)
  | evRefresh => exact .whenRunning (.ite ⟨g, rfl⟩ ⟨g, rfl⟩)
  | evReset => exact ⟨[], rfl⟩
  | evRestore => exact .whenRunning (.ite ⟨[], rfl⟩ rfl)

end rows

end Sys2Proof.Machine
end

section
/-! The obligations of 10_state.md. -/

namespace Sys2Proof.StateRules
open Machine

/-- Settles O52: by the kind of effect of the step; the parameters a step accepts are valid, which places the buffer. -/
theorem stepKeepsTheInvariant : Obligations.StepKeepsTheInvariant := by
  unfold Obligations.StepKeepsTheInvariant
  intro s t hs hstep
  obtain ⟨hv, rest, ⟨i, hrow⟩ | ⟨a, hreserved⟩ | ⟨a, bytes, hstore⟩⟩ := step_cases hstep
  · exact (exec_effect hrow).keeps_Inv hv hs
  · obtain ⟨e, o, rfl⟩ := runReserved_eq_next hreserved
    exact hs
  · obtain rfl := runGuestStore_eq_next hstore
    exact Inv_putBytes hs a bytes

/-- Settles O53: of the timer's steps only EV.ADVANCE counts. -/
theorem onlyTheClockMovesTheCounter : Obligations.OnlyTheClockMovesTheCounter := by
  unfold Obligations.OnlyTheClockMovesTheCounter
  intro i s t h hadvance hreset hrestore
  obtain hsame | hstep := (exec_effect h).timer hreset hrestore
  · rw [hsame]
  · exact hstep.counter_eq hadvance

/-- Settles O54: one argument for the four channels. -/
theorem onlyItsOwnWriteChangesACompare : Obligations.OnlyItsOwnWriteChangesACompare := by
  unfold Obligations.OnlyItsOwnWriteChangesACompare
  intro i s t h hreset hrestore
  have hget (k : Fin 4) (hk : ∀ w, i ≠ compareWrite k w) : t.st.compare.get k = s.st.compare.get k := by
    obtain hsame | hstep := (exec_effect h).timer hreset hrestore
    · rw [hsame]
    · exact hstep.compare_get_eq hk
  exact ⟨hget 0, hget 1, hget 2, hget 3⟩

/-- Settles O55: a reset clears every bit, and the timer's own steps are cited. -/
theorem matchBitRisesOnlyAtItsTarget : Obligations.MatchBitRisesOnlyAtItsTarget := by
  unfold Obligations.MatchBitRisesOnlyAtItsTarget
  intro i s t k harmed h hrestore
  by_cases hreset : i = .evReset
  · subst hreset
    cases h
    refine ⟨fun _ h1 => ?_, fun _ _ => .inl rfl⟩
    simp [Timer.initial, Timer.isMatched] at h1
  · obtain hsame | hstep := (exec_effect h).timer hreset hrestore
    · rw [hsame]
      exact ⟨fun h0 h1 => by simp [h0] at h1, fun h1 h0 => by simp [h0] at h1⟩
    · exact ⟨hstep.rises harmed, fun h1 h0 => .inr (hstep.falls h1 h0)⟩

/-- Settles O56: by the kind of effect, each of which names the one component it writes. -/
theorem eachComponentHasItsOwnWriters : Obligations.EachComponentHasItsOwnWriters := by
  unfold Obligations.EachComponentHasItsOwnWriters
  intro i s t h hreset hrestore
  cases exec_effect h with
  | answers | reports => exact ⟨.inl rfl, .inl rfl, .inl rfl, .inl rfl, id, .inl rfl, .inl rfl, .inl rfl⟩
  | @rings _ d own =>
    cases d
    case power => exact ⟨.inr own, .inl rfl, .inl rfl, .inl rfl, id, .inl rfl, .inl rfl, .inl rfl⟩
    case fbctl => exact ⟨.inl rfl, .inl rfl, .inr own, .inl rfl, id, .inl rfl, .inl rfl, .inl rfl⟩
    case vchiq => exact ⟨.inl rfl, .inr own, .inl rfl, .inl rfl, id, .inl rfl, .inl rfl, .inl rfl⟩
  | times hstep => exact ⟨.inl rfl, .inl rfl, .inl rfl, .inl rfl, id, .inl rfl, .inl rfl, .inr hstep.row⟩
  | repaints ok =>
    exact ⟨.inl rfl, .inl rfl, .inl rfl, .inr (.inr ⟨ok, rfl⟩), id, .inl rfl, .inl rfl, .inl rfl⟩
  | halts w =>
    exact ⟨.inl rfl, .inl rfl, .inl rfl, .inr (.inl ⟨w, rfl⟩), id, .inl rfl, .inr ⟨w, rfl⟩, .inl rfl⟩
  | configures w =>
    exact ⟨.inl rfl, .inl rfl, .inr (.inr ⟨w, rfl⟩), .inr (.inl ⟨w, rfl⟩), fun _ => rfl, .inr ⟨w, rfl⟩, .inl rfl,
      .inl rfl⟩
  | resets => exact absurd rfl hreset
  | restores r c => exact absurd rfl (hrestore r c)

/-- Settles O57: by the kind of effect, one of which appends. -/
theorem guestErrorsAppendParametersStay : Obligations.GuestErrorsAppendParametersStay := by
  unfold Obligations.GuestErrorsAppendParametersStay
  intro i s t h
  cases exec_effect h with
  | reports _ e => exact ⟨rfl, fun _ _ => .inr ⟨e, rfl⟩⟩
  | rings => exact ⟨setChannel_params _ _ _, fun _ _ => .inl (setChannel_gerr _ _ _)⟩
  | answers | times | repaints | halts | configures => exact ⟨rfl, fun _ _ => .inl rfl⟩
  | resets => exact ⟨rfl, fun hreset => absurd rfl hreset⟩
  | restores r c => exact ⟨rfl, fun _ hrestore => absurd rfl (hrestore r c)⟩

/-- Settles O58: row by row, every test of a meaning gives the same answer on both states. -/
theorem guestErrorListIsNeverRead : Obligations.GuestErrorListIsNeverRead := by
  unfold Obligations.GuestErrorListIsNeverRead
  intro i s g
  have h := exec_sameButErrors s g i
  cases hrow : exec i s <;> rw [hrow] at h <;> exact h

/-- Settles O50: the reset of a state that has nothing to lose, by evaluation. -/
theorem resetStateIsAFixpointOfReset : Obligations.ResetStateIsAFixpointOfReset := by
  unfold Obligations.ResetStateIsAFixpointOfReset
  exact ⟨rfl, by decide⟩

/-- Settles O51: the reset state is what a reset leaves (O50), and every reset leaves the invariant. -/
theorem invariantHoldsAtReset : Obligations.InvariantHoldsAtReset := by
  unfold Obligations.InvariantHoldsAtReset
  obtain ⟨hreset, -⟩ := resetStateIsAFixpointOfReset
  exact Host.Outcome.next.inj hreset ▸ Inv_initial rfl State.reset.params.t0

end Sys2Proof.StateRules
end

section
/-! SUPPORT. What a word written to guest RAM leaves at each of its four bytes (20_memory.md R66, R76). -/

namespace Sys2Proof.Machine

section word
variable {m : Memory} {p : Params} {a : Word}

/-- Small offsets from one address name one byte only when they are one offset, whatever the banks. -/
theorem unbank_offset_inj (hb : banksAreHigh p = true) {j k : Nat} (hj : j < 64) (hk : k < 64) :
    p.unbank (a + BitVec.ofNat 32 j) = p.unbank (a + BitVec.ofNat 32 k) ↔ j = k := by
  have toNat_small {n : Nat} (hn : n < 64) : (BitVec.ofNat 32 n).toNat = n :=
    Nat.mod_eq_of_lt (Nat.lt_trans hn (by decide))
  refine ⟨fun h => Decidable.by_contra fun hjk => ?_, fun h => h ▸ rfl⟩
  refine unbank_offsets_ne p hb a _ _ (by rwa [toNat_small hj]) (by rwa [toNat_small hk]) (fun e => hjk ?_) h
  rw [← toNat_small hj, e, toNat_small hk]

/-- A byte of RAM at a small offset, after one byte was written at a small offset from the same address. -/
theorem ramByte_putByte_offset (hwf : m.wf = true) (hb : banksAreHigh p = true) {j k : Nat} (hj : j < 64) (hk : k < 64)
    (hram : p.isRam (a + BitVec.ofNat 32 k) = true) (b : Byte) :
    (m.putByte p (a + BitVec.ofNat 32 j) b).ramByte p (a + BitVec.ofNat 32 k) =
      if k = j then some b else m.ramByte p (a + BitVec.ofNat 32 k) := by
  simp only [ramByte_putByte m hwf, hram, true_and, unbank_offset_inj hb hk hj]

/-- A word is stored as its four bytes, at the offsets 0 to 3. -/
theorem putWord_eq_offsets (m : Memory) (p : Params) (a v : Word) :
    m.putWord p a v =
      (((m.putByte p (a + BitVec.ofNat 32 0) (byteOf v 0)).putByte p (a + BitVec.ofNat 32 1) (byteOf v 1)).putByte p
        (a + BitVec.ofNat 32 2) (byteOf v 2)).putByte p (a + BitVec.ofNat 32 3) (byteOf v 3) := by
  rw [BitVec.add_zero]
  rfl

theorem wordIsRam_offset (h : wordIsRam p a = true) {k : Nat} (hk : k < 4) :
    p.isRam (a + BitVec.ofNat 32 k) = true := by
  simp only [wordIsRam, Bool.and_eq_true] at h
  obtain ⟨⟨⟨h0, h1⟩, h2⟩, h3⟩ := h
  match k with
  | 0 => rwa [BitVec.add_zero]
  | 1 => exact h1
  | 2 => exact h2
  | 3 => exact h3

/-- Byte `k` of a word written to RAM: the other three went to other bytes. -/
theorem ramByte_putWord_offset (hwf : m.wf = true) (hb : banksAreHigh p = true) (hram : wordIsRam p a = true) (v : Word)
    {k : Nat} (hk : k < 4) : (m.putWord p a v).ramByte p (a + BitVec.ofNat 32 k) = some (byteOf v k) := by
  have hk64 : k < 64 := Nat.lt_trans hk (by decide)
  have hkram := wordIsRam_offset hram hk
  have wf0 := putByte_wf m hwf p (a + BitVec.ofNat 32 0) (byteOf v 0)
  have wf1 := putByte_wf _ wf0 p (a + BitVec.ofNat 32 1) (byteOf v 1)
  have wf2 := putByte_wf _ wf1 p (a + BitVec.ofNat 32 2) (byteOf v 2)
  rw [putWord_eq_offsets, ramByte_putByte_offset wf2 hb (by decide) hk64 hkram,
    ramByte_putByte_offset wf1 hb (by decide) hk64 hkram, ramByte_putByte_offset wf0 hb (by decide) hk64 hkram,
    ramByte_putByte_offset hwf hb (by decide) hk64 hkram]
  match k with
  | 0 | 1 | 2 | 3 => rfl

/-- The same of `MemWrite`, as a byte of the state. -/
theorem peek_memWrite_offset {s : State} (hwf : s.mem.wf = true) (hb : banksAreHigh s.params = true)
    (hram : wordIsRam s.params a = true) (v : Word) {k : Nat} (hk : k < 4) :
    peek (memWrite s a v) (a + BitVec.ofNat 32 k) = some (byteOf v k) :=
  ramByte_putWord_offset hwf hb hram v hk

end word

end Sys2Proof.Machine
end

section
/-! SUPPORT. What a step does with a packet the decoder accepts (20_memory.md R71). -/

namespace Sys2Proof.Machine

/-- Of the rows, EV.ADVANCE alone asks for a count of time. -/
theorem isAdvance_row_iff {i : Instr} : isAdvance (.row i) = true ↔ i = .evAdvance := by
  cases i <;> simp [isAdvance]

theorem step_decodedPacket {s : State} {p : Packet} {rest : List Stimulus} {d : Decoded}
    (hv : s.params.valid = true) (hi : s.inbox = .packet p :: rest) (hd : decode p = .ok d) :
    step s = runHead d rest s := by
  simp [step, runNext, hv, hi, runPacket, hd]

theorem runHead_row (i : Instr) (rest : List Stimulus) (s : State) :
    runHead (.row i) rest s =
      if i = .evAdvance ∧ s.st.tickDue = true then exec .evTick s else exec i { s with inbox := rest } := by
  simp only [runHead, Bool.and_eq_true, isAdvance_row_iff, runDecoded]

end Sys2Proof.Machine
end

section
/-! The obligations of 20_memory.md. -/

namespace Sys2Proof.GuestMemory
open Machine

/-- Settles O32: the four bytes are stored at four different un-banked addresses, and the read joins them again. -/
theorem memReadReturnsWhatMemWriteStored : Obligations.MemReadReturnsWhatMemWriteStored := by
  unfold Obligations.MemReadReturnsWhatMemWriteStored
  intro s a v hwf hb hram
  have byte {k : Nat} (hk : k < 4) := peek_memWrite_offset hwf hb hram v hk
  have h0 : peek (memWrite s a v) a = some (byteOf v 0) := by simpa using byte (k := 0) (by decide)
  have h1 : peek (memWrite s a v) (a + 1) = some (byteOf v 1) := byte (k := 1) (by decide)
  have h2 : peek (memWrite s a v) (a + 2) = some (byteOf v 2) := byte (k := 2) (by decide)
  have h3 : peek (memWrite s a v) (a + 3) = some (byteOf v 3) := byte (k := 3) (by decide)
  exact ⟨memRead_of_peek h0 h1 h2 h3, h0, h1, h2, h3⟩

/-- Settles O5: the row at the head of the inbox runs, and EV.ADVANCE alone can be held back, by a due tick. -/
theorem stepRunsTheDecodedRow : Obligations.StepRunsTheDecodedRow := by
  unfold Obligations.StepRunsTheDecodedRow
  intro s p rest i hv hi hd
  rw [step_decodedPacket hv hi hd, runHead_row]

end Sys2Proof.GuestMemory
end

section
/-! SUPPORT. What the decoder answers, said once (30_encoding.md R91 to R94, R101, R102, R107): for a register access, for
an event, and for any packet. -/

namespace Sys2Proof

theorem decodeAccess_of_row {a : Access} {wdata : Word} {i : Instr} (h : accessRow a wdata = some i) :
    decodeAccess a wdata = .row i := by
  rw [decodeAccess, h]

theorem decodeAccess_of_noRow {a : Access} {wdata : Word} (h : accessRow a wdata = none) :
    decodeAccess a wdata = .reserved a := by
  rw [decodeAccess, h]

theorem accessRow_read (d : Device) (off wdata : Word) :
    accessRow ⟨d, false, 4, off⟩ wdata = readRow d off.toNat := by
  simp [accessRow]

theorem accessRow_write (d : Device) (off wdata : Word) :
    accessRow ⟨d, true, 4, off⟩ wdata = writeRow d off.toNat wdata := by
  simp [accessRow]

theorem decode_readPacket (d : Device) {off : Word} {i : Instr} (h : readRow d off.toNat = some i) :
    decode (readPacket d.code off) = .ok (.row i) :=
  calc decode (readPacket d.code off)
    _ = .ok (decodeAccess ⟨d, false, 4, off⟩ 0) := decode_accessPacket ⟨d, false, 4, off⟩ 0
    _ = .ok (.row i) := by rw [decodeAccess_of_row ((accessRow_read d off 0).trans h)]

theorem decode_writePacket (d : Device) {off wdata : Word} {i : Instr} (h : writeRow d off.toNat wdata = some i) :
    decode (writePacket d.code off wdata) = .ok (.row i) :=
  calc decode (writePacket d.code off wdata)
    _ = .ok (decodeAccess ⟨d, true, 4, off⟩ wdata) := decode_accessPacket ⟨d, true, 4, off⟩ wdata
    _ = .ok (.row i) := by rw [decodeAccess_of_row ((accessRow_write d off wdata).trans h)]

theorem decode_eventPacket (n : Word) (o : Operands) : decode (eventPacket n o) = eventRow n.toNat o := by
  simp [decode, eventPacket]

/-- A register row has the word of the access it was read from. -/
theorem accessRow_word {a : Access} {wdata : Word} {i : Instr} (h : accessRow a wdata = some i) :
    i.wellFormed = true ∧ (encode i).tw = packTW a.dev.code (BitVec.ofBool a.write) a.size a.off := by
  obtain ⟨d, w, z, off⟩ := a
  obtain rfl : z = 4 := Decidable.byContradiction fun hz => by
    rw [accessRow, if_neg hz] at h
    cases h
  cases w with
  | false => simpa using readRow_word ((accessRow_read d off wdata).symm.trans h)
  | true => simpa using writeRow_word ((accessRow_write d off wdata).symm.trans h)

/-- Whether a write is a row does not depend on the value written. -/
theorem writeRow_isSome (d : Device) (n : Nat) (w w' : Word) : (writeRow d n w).isSome = (writeRow d n w').isSome := by
  unfold writeRow
  split <;> rfl

theorem accessRow_isSome (a : Access) (w w' : Word) : (accessRow a w).isSome = (accessRow a w').isSome := by
  unfold accessRow
  split
  · split
    · exact writeRow_isSome ..
    · rfl
  · rfl

/-- An event number is a row's (with that row's word), EV.RESTORE's with a record no EV.SAVE produced, or no event's. -/
theorem eventRow_cases (n : Nat) (o : Operands) :
    (∃ i, eventRow n o = .ok (.row i) ∧ i.wellFormed = true ∧ (encode i).tw = packTW 7 0 0 (BitVec.ofNat 32 n)) ∨
    (n = 5 ∧ o.record.wellFormed = false ∧ eventRow n o = .error .malformedRecord) ∨
    (∀ o', eventRow n o' = .error .noSuchEvent) := by
  match n with
  | 0 | 1 | 2 | 3 | 4 => exact .inl ⟨_, rfl, rfl, rfl⟩
  | 5 =>
    cases hr : o.record.wellFormed with
    | true => exact .inl ⟨.evRestore o.record o.clock, by simp [eventRow, hr], hr, rfl⟩
    | false => exact .inr (.inl ⟨rfl, rfl, by simp [eventRow, hr]⟩)
  | _ + 6 => exact .inr (.inr fun _ => rfl)

theorem decode_of_device {tw : BitVec 40} {d : Device} (h : twDev tw = d.code) (o : Operands) :
    decode ⟨tw, o⟩ = .ok (decodeAccess ⟨d, twWrite tw, twSize tw, twOff tw⟩ o.wdata) := by
  cases d <;> simp [decode, h, Device.code, deviceOf]

theorem decode_of_event {tw : BitVec 40} (h : twDev tw = 7 ∧ twWrite tw = false ∧ twSize tw = 0) (o : Operands) :
    decode ⟨tw, o⟩ = eventRow (twOff tw).toNat o := by
  simp [decode, h]

/-- A word of no device that is not an event's either is an error, whatever the operand lines. -/
theorem decode_of_noDevice {tw : BitVec 40} (hd : ∀ d : Device, twDev tw ≠ d.code)
    (he : ¬ (twDev tw = 7 ∧ twWrite tw = false ∧ twSize tw = 0)) (o : Operands) :
    decode ⟨tw, o⟩ = .error (if twDev tw = 7 then .noSuchEvent else .noSuchDevice) := by
  unfold decode
  by_cases h7 : twDev tw = 7
  · simp only [h7, true_and] at he
    simp only [h7, if_true, if_neg he]
  · simp only [if_neg h7]
    cases h : deviceOf (twDev tw).toNat with
    | none => rfl
    | some d => exact absurd (deviceOf_eq_some h) (hd d)

/-- All the decoder can answer (R107): the well-formed row whose word this is; EV.RESTORE refused for its record (log 15);
and, whatever the operand lines, a reserved transaction with the word's fields, or an error of a word of no device. -/
theorem decode_cases (tw : BitVec 40) (o : Operands) :
    (∃ i, decode ⟨tw, o⟩ = .ok (.row i) ∧ i.wellFormed = true ∧ (encode i).tw = tw) ∨
    (tw = 0xE000000005 ∧ o.record.wellFormed = false ∧ decode ⟨tw, o⟩ = .error .malformedRecord) ∨
    (∃ d : Device, twDev tw = d.code ∧
      ∀ o', decode ⟨tw, o'⟩ = .ok (.reserved ⟨d, twWrite tw, twSize tw, twOff tw⟩)) ∨
    ((∀ d : Device, twDev tw ≠ d.code) ∧
      ∀ o', decode ⟨tw, o'⟩ = .error (if twDev tw = 7 then .noSuchEvent else .noSuchDevice)) := by
  by_cases hd : ∃ d : Device, twDev tw = d.code
  · obtain ⟨d, hd⟩ := hd
    cases hrow : accessRow ⟨d, twWrite tw, twSize tw, twOff tw⟩ o.wdata with
    | some i =>
      obtain ⟨hwf, htw⟩ := accessRow_word hrow
      refine .inl ⟨i, by rw [decode_of_device hd, decodeAccess_of_row hrow], hwf, ?_⟩
      rw [htw, ← hd, packTW_fields]
    | none =>
      refine .inr (.inr (.inl ⟨d, hd, fun o' => ?_⟩))
      rw [decode_of_device hd, decodeAccess_of_noRow]
      rw [← Option.not_isSome_iff_eq_none, accessRow_isSome _ _ o.wdata, hrow]
      simp
  · have hd : ∀ d : Device, twDev tw ≠ d.code := not_exists.mp hd
    by_cases he : twDev tw = 7 ∧ twWrite tw = false ∧ twSize tw = 0
    · have htw := tw_of_fields he.1 he.2.1 he.2.2 rfl
      rcases eventRow_cases (twOff tw).toNat o with ⟨i, hi, hwf, hi_tw⟩ | ⟨h5, hr, herr⟩ | hno
      · exact .inl ⟨i, (decode_of_event he o).trans hi, hwf, hi_tw.trans htw.symm⟩
      · exact .inr (.inl ⟨htw.trans (by rw [h5]; decide), hr, (decode_of_event he o).trans herr⟩)
      · refine .inr (.inr (.inr ⟨hd, fun o' => ?_⟩))
        rw [decode_of_event he, hno, if_pos he.1]
    · exact .inr (.inr (.inr ⟨hd, decode_of_noDevice hd he⟩))

/-- Every row stands in the table under its own mnemonic, with the word the encoder gives it (R101). -/
theorem encode_mem_opcodeTable (i : Instr) : (i.mnemonic, (encode i).tw) ∈ opcodeTable := by
  cases i <;> exact Laws.TableWord.mem_of_elem rfl

theorem restoreWord_mem_opcodeTable : 0xE000000005 ∈ opcodeTable.map Prod.snd := by
  decide

/-- With every operand line at zero, a word of the table decodes to a row. -/
theorem decode_tableWord {tw : BitVec 40} (h : tw ∈ opcodeTable.map Prod.snd) :
    ∃ i, decode ⟨tw, .zero⟩ = .ok (.row i) := by
  have all : opcodeTable.all (fun r => (decodeTableWord 40 r.2.toNat).isSome) = true := by decide
  obtain ⟨r, hr, rfl⟩ := List.mem_map.mp h
  have hrow := List.all_eq_true.mp all r hr
  simp only [decodeTableWord, tablePacket, BitVec.ofNat_toNat, BitVec.setWidth_eq] at hrow
  split at hrow
  · split at hrow
    · exact ⟨_, ‹_›⟩
    · simp at hrow
  · simp at hrow

/-- A word that is no row with its operand lines at zero is not in the table: those lines are a well-formed record's too. -/
theorem not_mem_opcodeTable {tw : BitVec 40} (h : ∀ i, decode ⟨tw, .zero⟩ ≠ .ok (.row i)) :
    tw ∉ opcodeTable.map Prod.snd :=
  fun hmem => (decode_tableWord hmem).elim h

end Sys2Proof
end

section
/-! The obligations of 30_encoding.md. -/

namespace Sys2Proof.Encoding

/-- Settles O1: the encoder's packet is a register read, a register write or an event, and its row stands at the
packet's offset or event number. -/
theorem decodeInvertsEncode : Obligations.DecodeInvertsEncode := by
  unfold Obligations.DecodeInvertsEncode
  intro i hwf
  match i with
  | .mboxRdIdPower | .mboxRdStatusPower => exact decode_readPacket .power rfl
  | .mboxWrCmdPower _ | .mboxWrStatusPower _ => exact decode_writePacket .power rfl
  | .mboxRdIdVchiq | .mboxRdStatusVchiq => exact decode_readPacket .vchiq rfl
  | .mboxWrCmdVchiq _ | .mboxWrStatusVchiq _ => exact decode_writePacket .vchiq rfl
  | .fbRdId | .fbRdStatus => exact decode_readPacket .fbctl rfl
  | .fbWrCmd _ | .fbWrStatus _ => exact decode_writePacket .fbctl rfl
  | .stRdMatch | .stRdCntLo | .stRdCntHi | .stRdCmp0 | .stRdCmp1 | .stRdCmp2 | .stRdCmp3 =>
    exact decode_readPacket .st rfl
  | .stWrMatch _ | .stWrCntLo _ | .stWrCntHi _ | .stWrCmp0 _ | .stWrCmp1 _ | .stWrCmp2 _ | .stWrCmp3 _ =>
    exact decode_writePacket .st rfl
  | .evReset | .evAdvance | .evTick | .evRefresh _ | .evSave => exact decode_eventPacket _ _
  | .evRestore record clock =>
    have hrecord : record.wellFormed = true := hwf
    simp [encode, decode_eventPacket, eventRow, hrecord]

/-- Settles O2: of the decoder's answers one is a row, and that row has the packet's word. -/
theorem decodedRowEncodesBack : Obligations.DecodedRowEncodesBack := by
  unfold Obligations.DecodedRowEncodesBack
  rintro ⟨tw, o⟩ i hi
  rcases decode_cases tw o with ⟨j, hj, hwf, htw⟩ | ⟨_, _, he⟩ | ⟨_, _, hres⟩ | ⟨_, herr⟩
  · obtain rfl : j = i := by simpa [hj] using hi
    exact ⟨hwf, htw⟩
  · simp [he] at hi
  · simp [hres] at hi
  · simp [herr] at hi

/-- Settles O3: the decoder's four answers fit the clauses, a row's word is in the table, and a word that answers
something else whatever the operand lines is not. -/
theorem everyWordIsRowReservedOrInvalid : Obligations.EveryWordIsRowReservedOrInvalid := by
  unfold Obligations.EveryWordIsRowReservedOrInvalid
  refine ⟨by decide, fun ⟨tw, o⟩ => ?_⟩
  rcases decode_cases tw o with ⟨i, hi, _, htw⟩ | ⟨htw, hrec, he⟩ | ⟨d, hd, hres⟩ | ⟨hd, herr⟩
  · have hmem : (i.mnemonic, tw) ∈ opcodeTable := htw ▸ encode_mem_opcodeTable i
    exact .inl ⟨List.mem_map_of_mem hmem, .inl ⟨i, hi, hmem⟩⟩
  · exact .inl ⟨htw ▸ restoreWord_mem_opcodeTable, .inr ⟨htw, hrec, he⟩⟩
  · exact .inr (.inl ⟨not_mem_opcodeTable (by simp [hres]), d, hd, hres o⟩)
  · exact .inr (.inr ⟨not_mem_opcodeTable (by simp [herr]), hd, herr o⟩)

/-- Settles O4, by evaluation. -/
theorem tableWordsDecodeAsWritten : Obligations.TableWordsDecodeAsWritten :=
  ⟨rfl, rfl, rfl, rfl, rfl, rfl⟩

end Sys2Proof.Encoding
end

section
/-! SUPPORT. How a register access runs (40_register_device.md R122 to R129): the accesses that are rows, what each of the
others is rejected for, the two entry points against the decoder's tables, and what a halted platform answers. -/

namespace Sys2Proof

/-- Every register is one aligned 32-bit word below 0x08 (mailbox devices) or 0x1C (timer) (R120, R121). -/
theorem accessRow_location {a : Access} {wdata : Word} {i : Instr} (h : accessRow a wdata = some i) :
    a.size = 4 ∧ a.off.toNat < (if a.dev = .st then 0x1C else 0x08) ∧ a.off.toNat % 4 = 0 := by
  unfold accessRow at h
  split at h
  case isFalse => cases h
  case isTrue hsize =>
    refine ⟨hsize, ?_⟩
    split at h
    · exact writeRow_offset h
    · exact readRow_offset h

/-- Where no register lies there is no row. -/
theorem accessRow_eq_none {a : Access} (wdata : Word)
    (h : ¬ (a.size = 4 ∧ a.off.toNat < (if a.dev = .st then 0x1C else 0x08) ∧ a.off.toNat % 4 = 0)) :
    accessRow a wdata = none :=
  Option.eq_none_iff_forall_ne_some.mpr fun _ hrow => h (accessRow_location hrow)

/-- No register access has the word of EV.RESET, whose `dev` is no device's code (R94). -/
theorem decodeAccess_ne_evReset (a : Access) (wdata : Word) : decodeAccess a wdata ≠ .row .evReset := by
  cases hrow : accessRow a wdata with
  | none => simp [decodeAccess_of_noRow hrow]
  | some i =>
    rw [decodeAccess_of_row hrow]
    rintro ⟨⟩
    obtain ⟨-, hword⟩ := accessRow_word hrow
    have hdev : 7 = a.dev.code := by simpa [encode, eventPacket] using congrArg twDev hword
    cases hd : a.dev <;> simp [hd, Device.code] at hdev

namespace Machine

/-! ### Why an access is rejected -/

section reject
variable {p : Params} {a : Access}

theorem rejectCode_outside (h : p.window a.dev ≤ a.off.toNat) : rejectCode p a = .range :=
  if_pos h

theorem rejectCode_wrongAccess (hin : a.off.toNat < p.window a.dev) (h : a.size ≠ 4 ∨ a.off.toNat % 4 ≠ 0) :
    rejectCode p a = .access := by
  rw [rejectCode, if_neg (Nat.not_le.mpr hin), if_pos h]

theorem rejectCode_hole (hin : a.off.toNat < p.window a.dev) (hsize : a.size = 4) (halign : a.off.toNat % 4 = 0) :
    rejectCode p a = .undef := by
  rw [rejectCode, if_neg (Nat.not_le.mpr hin), if_neg (by simp [hsize, halign])]

end reject

/-- A reserved access is a reported no-op, and its read returns 0 (R124 to R127). -/
theorem runReserved_of_running {s : State} (h : s.halted = false) (a : Access) :
    runReserved a s = .next { s with
      gerr := s.gerr ++ [⟨a.dev, rejectCode s.params a, a.off⟩], out := if a.write then .none else .rdata 0 } := by
  rw [runReserved, whenRunning_of_running h]
  cases a.write <;> rfl

theorem step_reservedAccess {s : State} {a : Access} {wdata : Word} {rest : List Stimulus}
    (hv : s.params.valid = true) (hrun : s.halted = false) (hi : s.inbox = .packet (accessPacket a wdata) :: rest)
    (hrow : accessRow a wdata = none) :
    step s = .next { s with
      inbox := rest, gerr := s.gerr ++ [⟨a.dev, rejectCode s.params a, a.off⟩],
      out := if a.write then .none else .rdata 0 } := by
  rw [step_accessPacket hv hi, decodeAccess_of_noRow hrow]
  exact runReserved_of_running (s := { s with inbox := rest }) hrun a

/-- An access outside the window, which holds every register (00_scope.md R8). -/
theorem step_outOfRange {s : State} {a : Access} {wdata : Word} {rest : List Stimulus}
    (hv : s.params.valid = true) (hrun : s.halted = false) (hi : s.inbox = .packet (accessPacket a wdata) :: rest)
    (hout : s.params.window a.dev ≤ a.off.toNat) :
    step s = .next { s with
      inbox := rest, gerr := s.gerr ++ [⟨a.dev, .range, a.off⟩], out := if a.write then .none else .rdata 0 } := by
  have hrow : accessRow a wdata = none :=
    accessRow_eq_none wdata fun ⟨_, hlt, _⟩ => Nat.not_lt.mpr hout (register_in_window hv hlt)
  rw [step_reservedAccess hv hrun hi hrow, rejectCode_outside hout]

/-! ### A halted platform -/

section halted
variable {s : State} (h : s.halted = true)
include h

theorem exec_of_halted {i : Instr} (hi : i ≠ .evReset) : exec i s = .fault .platformHalted := by
  cases i with
  | evReset => exact absurd rfl hi
  | _ => exact whenRunning_of_halted h _

theorem runReserved_of_halted (a : Access) : runReserved a s = .fault .platformHalted :=
  whenRunning_of_halted h _

theorem runGuestStore_of_halted (a : Word) (bytes : List Byte) : runGuestStore a bytes s = .fault .platformHalted :=
  whenRunning_of_halted h _

theorem freeRun_of_halted : freeRun s = .fault .platformHalted := by
  unfold freeRun
  split <;> exact exec_of_halted h (by simp)

/-- Of the decoded words only EV.RESET has a next state. -/
theorem runDecoded_of_halted {d : Decoded} (hd : d ≠ .row .evReset) : runDecoded d s = .fault .platformHalted := by
  cases d with
  | row i => exact exec_of_halted h fun hi => hd (congrArg _ hi)
  | reserved a => exact runReserved_of_halted h a

theorem runHead_of_halted {d : Decoded} (rest : List Stimulus) (hd : d ≠ .row .evReset) :
    runHead d rest s = .fault .platformHalted := by
  unfold runHead
  split
  · exact exec_of_halted h (by simp)
  · exact runDecoded_of_halted (s := { s with inbox := rest }) h hd

/-- A step that answers a next state took EV.RESET from the head of the inbox (R129). -/
theorem step_of_halted {t : State} (hstep : step s = .next t) :
    ∃ (p : Packet) (rest : List Stimulus), s.inbox = .packet p :: rest ∧ decode p = .ok (.row .evReset) := by
  obtain ⟨hv, -⟩ := step_cases hstep
  rw [step, runNext, if_pos hv] at hstep
  split at hstep
  case h_1 =>
    rw [freeRun_of_halted h] at hstep
    cases hstep
  case h_2 p rest hi =>
    unfold runPacket at hstep
    split at hstep
    case h_1 d hd =>
      by_cases hreset : d = .row .evReset
      · exact ⟨p, rest, hi, hreset ▸ hd⟩
      · rw [runHead_of_halted h rest hreset] at hstep
        cases hstep
    case h_2 => cases hstep
  case h_3 a bytes rest _ =>
    rw [runGuestStore_of_halted (s := { s with inbox := rest }) h] at hstep
    cases hstep

end halted

/-! ### The two entry points -/

section caseTables
variable {s : State} {d : Device} {off : Word} {wdata : Word}

/-- The case table of R122 is the decoder's table of reads. -/
theorem regRead_inWindow (hrun : s.halted = false) (hin : off.toNat < s.params.window d) (halign : off.toNat % 4 = 0) :
    regRead d off 4 s = (readRow d off.toNat).elim (rejectRead s ⟨d, .undef, off⟩) (exec · s) := by
  unfold regRead
  rw [if_neg (by simp [hrun]), if_neg (Nat.not_le.mpr hin), if_neg (by simp [halign])]
  generalize off.toNat = n
  unfold readRow
  split
  case h_14 => split <;> simp_all -- the default case, which no register of the decoder's table meets
  all_goals rfl

/-- A write to a read-only register is rejected at its own offset (R128). -/
theorem writeReadOnly_of_running (hrun : s.halted = false) {k : Word} (hk : off.toNat = k.toNat) :
    writeReadOnly d k s = rejectWrite s ⟨d, .undef, off⟩ := by
  rw [writeReadOnly, whenRunning_of_running hrun, BitVec.eq_of_toNat_eq hk]

/-- The case table of R123 is the decoder's table of writes; it rejects the read-only rows among the holes. -/
theorem regWrite_inWindow (hrun : s.halted = false) (hin : off.toNat < s.params.window d) (halign : off.toNat % 4 = 0) :
    regWrite d off 4 wdata s = (writeRow d off.toNat wdata).elim (rejectWrite s ⟨d, .undef, off⟩) (exec · s) := by
  unfold regWrite
  rw [if_neg (by simp [hrun]), if_neg (Nat.not_le.mpr hin), if_neg (by simp [halign])]
  unfold writeRow
  generalize hn : off.toNat = n
  split
  case h_9 => -- the default case: the decoder's table has a hole here, or one of its five read-only registers
    split
    case h_2 | h_4 | h_6 | h_8 | h_9 => exact (writeReadOnly_of_running hrun hn).symm
    all_goals simp_all
  all_goals rfl

end caseTables

/-- The entry point an access goes through (R122, R123). -/
def regAccess (a : Access) (wdata : Word) (s : State) : Result :=
  if a.write then regWrite a.dev a.off a.size wdata s else regRead a.dev a.off a.size s

section entry
variable {s : State} {a : Access} (wdata : Word)

theorem regAccess_of_halted (h : s.halted = true) : regAccess a wdata s = .fault .platformHalted := by
  cases hw : a.write <;> simp [regAccess, hw, regRead, regWrite, h]

/-- The range, width and alignment tests of the entry points come before the case table (R132). -/
theorem regAccess_rejected (hrun : s.halted = false)
    (h : s.params.window a.dev ≤ a.off.toNat ∨ a.size ≠ 4 ∨ a.off.toNat % 4 ≠ 0) :
    regAccess a wdata s = runReserved a s := by
  by_cases hout : s.params.window a.dev ≤ a.off.toNat
  · simp [regAccess, regRead, regWrite, runReserved, whenRunning_of_running, hrun, hout, rejectCode_outside]
  · have hacc := h.resolve_left hout
    rw [runReserved, whenRunning_of_running hrun, rejectCode_wrongAccess (Nat.not_le.mp hout) hacc]
    simp only [regAccess, regRead, regWrite, hrun, Bool.false_eq_true, if_false, if_neg hout, if_pos hacc]

theorem regAccess_inWindow (hrun : s.halted = false) (hin : a.off.toNat < s.params.window a.dev) (hsize : a.size = 4)
    (halign : a.off.toNat % 4 = 0) :
    regAccess a wdata s = (accessRow a wdata).elim (runReserved a s) (exec · s) := by
  rw [runReserved, whenRunning_of_running hrun, rejectCode_hole hin hsize halign, regAccess, accessRow, if_pos hsize,
    hsize]
  split
  · exact regWrite_inWindow hrun hin halign
  · exact regRead_inWindow hrun hin halign

theorem runDecoded_decodeAccess :
    runDecoded (decodeAccess a wdata) s = (accessRow a wdata).elim (runReserved a s) (exec · s) := by
  cases h : accessRow a wdata with
  | none => rw [decodeAccess_of_noRow h]; rfl
  | some i => rw [decodeAccess_of_row h]; rfl

/-- The way through the decoder is the entry point: the parameters give every register a place in its window (R8). -/
theorem runDecoded_eq_regAccess (hv : s.params.valid = true) :
    runDecoded (decodeAccess a wdata) s = regAccess a wdata s := by
  cases hrun : s.halted with
  | true => rw [regAccess_of_halted wdata hrun, runDecoded_of_halted hrun (decodeAccess_ne_evReset a wdata)]
  | false =>
    rw [runDecoded_decodeAccess]
    by_cases hrej : s.params.window a.dev ≤ a.off.toNat ∨ a.size ≠ 4 ∨ a.off.toNat % 4 ≠ 0
    · have hrow : accessRow a wdata = none := accessRow_eq_none wdata fun ⟨hsize, hlt, halign⟩ =>
        hrej.elim (Nat.not_le.mpr (register_in_window hv hlt)) (·.elim (· hsize) (· halign))
      rw [regAccess_rejected wdata hrun hrej, hrow]
      rfl
    · simp only [not_or, Decidable.not_not, Nat.not_le] at hrej
      obtain ⟨hin, hsize, halign⟩ := hrej
      rw [regAccess_inWindow wdata hrun hin hsize halign]

theorem step_eq_regAccess {rest : List Stimulus} (hv : s.params.valid = true)
    (hi : s.inbox = .packet (accessPacket a wdata) :: rest) :
    step s = regAccess a wdata { s with inbox := rest } := by
  rw [step_accessPacket hv hi, runDecoded_eq_regAccess (s := { s with inbox := rest }) wdata hv]

end entry

end Machine

end Sys2Proof
end

section
/-! The obligations of 40_register_device.md. -/

namespace Sys2Proof.RegisterDevice
open Machine

/-- Settles O6: the decoder's way is the entry point of the access, and that of a read is RegRead. -/
theorem busReadIsRegRead : Obligations.BusReadIsRegRead := by
  unfold Obligations.BusReadIsRegRead
  intro s d off size wdata rest hv hi
  exact step_eq_regAccess wdata hv hi

/-- Settles O7: the decoder's way is the entry point of the access, and that of a write is RegWrite. -/
theorem busWriteIsRegWrite : Obligations.BusWriteIsRegWrite := by
  unfold Obligations.BusWriteIsRegWrite
  intro s d off size wdata rest hv hi
  exact step_eq_regAccess wdata hv hi

/-- Settles O8: every register lies inside the window, so the access is reserved. -/
theorem outOfRangeReadReturnsZero : Obligations.OutOfRangeReadReturnsZero := by
  unfold Obligations.OutOfRangeReadReturnsZero
  intro s d off size wdata rest hv hrun hi hout
  exact step_outOfRange hv hrun hi hout

/-- Settles O9, as O8. -/
theorem outOfRangeWriteIsIgnored : Obligations.OutOfRangeWriteIsIgnored := by
  unfold Obligations.OutOfRangeWriteIsIgnored
  intro s d off size wdata rest hv hrun hi hout
  exact step_outOfRange hv hrun hi hout

/-- Settles O10: every register is one aligned 32-bit word, so the access is reserved. -/
theorem wrongWidthOrAlignmentIsNoOp : Obligations.WrongWidthOrAlignmentIsNoOp := by
  unfold Obligations.WrongWidthOrAlignmentIsNoOp
  intro s a wdata rest hv hrun hi hin hacc
  have hrow : accessRow a wdata = none :=
    accessRow_eq_none wdata fun ⟨hsize, _, halign⟩ => hacc.elim (· hsize) (· halign)
  rw [step_reservedAccess hv hrun hi hrow, rejectCode_wrongAccess hin hacc]

/-- Settles O11: no register lies that high, so the access is reserved. -/
theorem holeInWindowIsNoOp : Obligations.HoleInWindowIsNoOp := by
  unfold Obligations.HoleInWindowIsNoOp
  intro s a wdata rest hv hrun hi hin hsize halign hhole
  have hrow : accessRow a wdata = none := accessRow_eq_none wdata fun ⟨_, hlt, _⟩ => Nat.not_lt.mpr hhole hlt
  rw [step_reservedAccess hv hrun hi hrow, rejectCode_hole hin hsize halign]

/-- Settles O12: every meaning but EV.RESET's is gated by `halted`, and so is all that an inbox can ask for. -/
theorem haltedPlatformTakesNoStep : Obligations.HaltedPlatformTakesNoStep := by
  unfold Obligations.HaltedPlatformTakesNoStep
  exact ⟨fun _ _ h hi => exec_of_halted h hi, fun a _ h => runReserved_of_halted h a, fun _ _ h => step_of_halted h⟩

end Sys2Proof.RegisterDevice
end

section
/-! SUPPORT. What each mailbox meaning answers on a running platform, at every channel (41_mailbox_channel.md R141 to R143,
R201), what an accepted push answers (43_framebuffer.md R190), and the identity read after either (R147). -/

namespace Sys2Proof.Machine

section channel
variable {s : State} (hrun : s.halted = false) (d : Mailbox)
include hrun

theorem mailboxCommand_of_running (wdata : Word) :
    mailboxCommand d wdata s = .next { s.setChannel d ⟨true, true⟩ with out := .none } :=
  whenRunning_of_running hrun _

theorem mailboxIdentity_of_running :
    mailboxIdentity d s = .next { s.setChannel d ⟨false, false⟩ with out := .rdata (idWord d) } :=
  whenRunning_of_running hrun _

theorem mailboxStatus_of_running :
    mailboxStatus d s = .next { s with out := .rdata (statusWord (s.channel d).pending) } :=
  whenRunning_of_running hrun _

end channel

theorem channel_withOut (s : State) (d : Mailbox) (o : Response) : ({ s with out := o } : State).channel d = s.channel d := by
  cases d <;> rfl

/-! ### An accepted push -/

@[simp] theorem acceptedPush_halted (s : State) (a : Word) : (acceptedPush s a).halted = s.halted := rfl

/-- The last step of the protocol is the doorbell (43_framebuffer.md R200). -/
@[simp] theorem acceptedPush_fbctl (s : State) (a : Word) : (acceptedPush s a).fbctl = ⟨true, true⟩ := rfl

/-- A push past the guard (R191), of a descriptor that is accepted. -/
theorem exec_fbWrCmd_accepted {s : State} {wdata : Word} (hrun : s.halted = false) (hidle : s.fbctl.pending = false)
    (hacc : PushAccepted s (descriptorAddr wdata)) :
    exec (.fbWrCmd wdata) s = .next (acceptedPush s (descriptorAddr wdata)) := by
  have hguard : ¬s.fbctl.pending = true := by simp [hidle]
  calc exec (.fbWrCmd wdata) s
    _ = if s.fbctl.pending then rejectWrite s ⟨.fbctl, .reentrant, 0x00⟩ else configure (descriptorAddr wdata) s :=
      whenRunning_of_running hrun _
    _ = configure (descriptorAddr wdata) s := if_neg hguard
    _ = .next (acceptedPush s (descriptorAddr wdata)) := configure_accepted hacc

/-! ### The handshake -/

/-- The outcome `r` leaves channel `d` pending with its line asserted, and the identity read that follows leaves it Idle
with its line deasserted and returns its id (R147). -/
def Handshake (r : Result) (d : Mailbox) : Prop :=
  ∃ t u, r = .next t ∧ t.channel d = ⟨true, true⟩ ∧
    mailboxIdentity d t = .next u ∧ u.channel d = ⟨false, false⟩ ∧ u.out = .rdata (idWord d)

/-- The identity read acknowledges whatever left the doorbell set on a running platform (R142). -/
theorem handshake_of_raised {r : Result} {t : State} {d : Mailbox} (hr : r = .next t) (hrun : t.halted = false)
    (hset : t.channel d = ⟨true, true⟩) : Handshake r d := by
  refine ⟨t, _, hr, hset, mailboxIdentity_of_running hrun d, ?_, rfl⟩
  rw [channel_withOut, channel_setChannel_self]

theorem mailboxCommand_handshake {s : State} (hrun : s.halted = false) (d : Mailbox) (wdata : Word) :
    Handshake (mailboxCommand d wdata s) d := by
  refine handshake_of_raised (mailboxCommand_of_running hrun d wdata) ?_ ?_
  · rw [setChannel_halted, hrun]
  · rw [channel_withOut, channel_setChannel_self]

theorem acceptedPush_handshake {s : State} {wdata : Word} (hrun : s.halted = false) (hidle : s.fbctl.pending = false)
    (hacc : PushAccepted s (descriptorAddr wdata)) : Handshake (exec (.fbWrCmd wdata) s) .fbctl := by
  refine handshake_of_raised (exec_fbWrCmd_accepted hrun hidle hacc) ?_ (acceptedPush_fbctl _ _)
  rw [acceptedPush_halted, hrun]

end Sys2Proof.Machine
end

section
/-! The obligations of 41_mailbox_channel.md. -/

namespace Sys2Proof.MailboxChannel
open Machine

/-- Settles O18: command write or accepted push, each leaves the doorbell set for the one identity read. -/
theorem mailboxHandshakeCompletes : Obligations.MailboxHandshakeCompletes := by
  unfold Obligations.MailboxHandshakeCompletes
  intro s wdata hrun
  exact ⟨mailboxCommand_handshake hrun .power wdata, mailboxCommand_handshake hrun .vchiq wdata,
    acceptedPush_handshake hrun⟩

/-- Settles O14: the meaning of the command write at the two plain channels. -/
theorem mailboxCommandRaisesDoorbell : Obligations.MailboxCommandRaisesDoorbell := by
  unfold Obligations.MailboxCommandRaisesDoorbell
  intro s wdata hrun
  exact ⟨mailboxCommand_of_running hrun .power wdata, mailboxCommand_of_running hrun .vchiq wdata, rfl, rfl⟩

/-- Settles O15: the meaning of the identity read at the two plain channels, with their ids 0 and 3. -/
theorem mailboxIdentityReadAcknowledges : Obligations.MailboxIdentityReadAcknowledges := by
  unfold Obligations.MailboxIdentityReadAcknowledges
  refine ⟨fun s hrun => ?_, rfl, rfl⟩
  exact ⟨mailboxIdentity_of_running hrun .power, mailboxIdentity_of_running hrun .vchiq⟩

/-- Settles O16: the meaning of the status read at the two plain channels. -/
theorem mailboxStatusReadReportsPending : Obligations.MailboxStatusReadReportsPending := by
  unfold Obligations.MailboxStatusReadReportsPending
  refine ⟨fun s hrun => ?_, rfl, rfl⟩
  exact ⟨mailboxStatus_of_running hrun .power, mailboxStatus_of_running hrun .vchiq⟩

/-- Settles O17: STATUS is read-only, and a write to it is rejected at its offset. -/
theorem mailboxStatusWriteIsRejected : Obligations.MailboxStatusWriteIsRejected := by
  unfold Obligations.MailboxStatusWriteIsRejected
  intro s wdata hrun
  exact ⟨writeReadOnly_of_running hrun rfl, writeReadOnly_of_running hrun rfl⟩

end Sys2Proof.MailboxChannel
end

section
/-! SUPPORT. The timer's procedures, said once: what a reschedule writes (42_system_timer.md R160, R163), when an armed
deadline is the current count (R176), the whole mask and the lines that an acknowledge leaves (R165), and a tick (R172). -/

namespace Sys2Proof.Machine

/-! ### Reschedule -/

section reschedule
variable {t : Timer} {k : Fin 4}

theorem Timer_reschedule_of_nearest (h : t.nearest = some k) :
    t.reschedule = { t with
      next := t.compare.get k, wake := some (t.counter + (t.compare.get k - low32 t.counter).zeroExtend 64) } := by
  rw [Timer.reschedule, h]
  rfl

theorem Timer_reschedule_of_none (h : t.nearest = none) : t.reschedule = { t with wake := none } := by
  rw [Timer.reschedule, h]

/-- Among the indexes of a rising list the one chosen comes first of those with its delta (R162). -/
theorem Timer_nearestOf_least {l : List (Fin 4)} (hl : l.Pairwise (· < ·)) (h : t.nearestOf l = some k) {i : Fin 4}
    (hi : i ∈ l) (hd : t.delta i = t.delta k) : k ≤ i := by
  induction l generalizing k with
  | nil => cases hi
  | cons j l ih =>
    obtain ⟨hj, hl⟩ := List.pairwise_cons.mp hl
    have hfirst : j ≤ i := (List.mem_cons.mp hi).elim (fun e => e ▸ Nat.le_refl _) fun hi => Nat.le_of_lt (hj i hi)
    simp only [Timer.nearestOf] at h
    split at h
    case h_1 => cases h; exact hfirst
    case h_2 m hm =>
      split at h
      case isTrue => cases h; exact hfirst
      case isFalse hlt =>
        cases h
        rcases List.mem_cons.mp hi with rfl | hi
        · exact absurd (Nat.le_of_eq (congrArg BitVec.toNat hd)) hlt
        · exact ih hl hm hi hd

theorem Timer_nearest_least (h : t.nearest = some k) {i : Fin 4} (hi : t.eligible i = true)
    (hd : t.delta i = t.delta k) : k ≤ i := by
  have hrising : channelIndexes.Pairwise (· < ·) := by decide
  exact Timer_nearestOf_least (hrising.filter _) h (List.mem_filter.mpr ⟨mem_channelIndexes i, hi⟩) hd

end reschedule

/-! ### The armed deadline -/

section armed
variable {t : Timer} {i : Fin 4}

theorem matched_ne_full_of_eligible (hi : t.eligible i = true) : t.matched ≠ 0xF := fun h => by
  have hm := (Timer_matched_eq_full t).mp h i
  rw [(Timer_eligible_iff t i).mp hi] at hm
  cases hm

/-- An eligible target at the current count leaves no nearer one, so the deadline is that count (R176). -/
theorem TimerArmed.due_of_target (h : TimerArmed t) (hi : t.eligible i = true)
    (htarget : t.compare.get i = low32 t.counter) : t.wake = some t.counter := by
  obtain ⟨harmed, -⟩ := h
  obtain ⟨d, k, hwake, -, -, hnext, hmin, hdist⟩ := harmed (matched_ne_full_of_eligible hi)
  have hi0 : t.delta i = 0 := by rw [Timer.delta, htarget, BitVec.sub_self]; rfl
  have hk0 : t.delta k = 0 := by
    have hle := hmin i hi
    rw [hi0] at hle
    exact BitVec.eq_of_toNat_eq (Nat.le_zero.mp hle)
  rw [hnext, show t.compare.get k - low32 t.counter = 0 from hk0] at hdist
  have hd : d = t.counter := by simpa using BitVec.sub_eq_iff_eq_add.mp hdist
  rw [hwake, hd]

/-- The deadline is always some eligible channel's target (10_state.md R32). -/
theorem TimerArmed.target_of_due (h : TimerArmed t) (hdue : t.wake = some t.counter) :
    ∃ k, t.eligible k = true ∧ t.compare.get k = t.next := by
  obtain ⟨harmed, hdisarmed⟩ := h
  have hm : t.matched ≠ 0xF := fun hm => by simp [hdisarmed hm] at hdue
  obtain ⟨-, k, -, -, hk, hnext, -⟩ := harmed hm
  exact ⟨k, hk, hnext.symm⟩

end armed

/-! ### The mask and the lines after an acknowledge -/

theorem acknowledge_matched (t : Timer) (ack : BitVec 4) : (t.acknowledge ack).matched = t.matched &&& ~~~ack := by
  refine BitVec.eq_of_getLsbD_eq fun i hi => ?_
  have hbit : (t.acknowledge ack).matched.getLsbD i = _ := acknowledge_isMatched t ack ⟨i, hi⟩
  rw [hbit, BitVec.getLsbD_and, BitVec.getLsbD_not, decide_eq_true hi, Bool.true_and]
  rfl

theorem acknowledge_eq_mask (t : Timer) (ack : BitVec 4) :
    t.acknowledge ack = { t with matched := t.matched &&& ~~~ack, lines := (t.acknowledge ack).lines } := by
  rw [← acknowledge_matched]
  exact acknowledge_eq t ack

/-! ### The tick -/

/-- The timer after EV.TICK (R172). -/
def Timer.afterTick (t : Timer) : Timer := (Timer.fire { t with wake := none }).reschedule

section tick
variable (t : Timer)

@[simp] theorem afterTick_counter : t.afterTick.counter = t.counter := by simp [Timer.afterTick]
@[simp] theorem afterTick_compare : t.afterTick.compare = t.compare := by simp [Timer.afterTick]

theorem afterTick_isMatched (i : Fin 4) :
    t.afterTick.isMatched i = (t.isMatched i || decide (t.compare.get i = t.next)) := by
  rw [Timer.afterTick, reschedule_isMatched, fire_isMatched]
  rfl

theorem afterTick_lines_get (i : Fin 4) :
    t.afterTick.lines.get i =
      if t.isMatched i = false ∧ t.compare.get i = t.next then true else t.lines.get i := by
  rw [Timer.afterTick, reschedule_lines, fire_lines_get]
  rfl

theorem afterTick_armed : TimerArmed t.afterTick := Timer_reschedule_armed _

/-- The tick is one reschedule of the mask and the lines it leaves. -/
theorem afterTick_eq :
    t.afterTick = Timer.reschedule { t with
      matched := t.afterTick.matched, lines := t.afterTick.lines, wake := none } := by
  rw [Timer.afterTick, reschedule_matched, reschedule_lines]
  exact congrArg Timer.reschedule (fire_eq _)

variable {t}

/-- After the tick the channels at this count are matched, so no eligible target is left there. -/
theorem afterTick_not_due (h : TimerArmed t) (hdue : t.wake = some t.counter) :
    t.afterTick.wake ≠ some t.afterTick.counter := by
  intro hagain
  obtain ⟨k, hk, htarget⟩ := (afterTick_armed t).target_of_due hagain
  have hnext : t.compare.get k = t.next := by
    rw [TimerArmed_next_of_due (afterTick_armed t) hagain, afterTick_counter, afterTick_compare] at htarget
    rw [htarget, TimerArmed_next_of_due h hdue]
  rw [Timer_eligible_iff, afterTick_isMatched, decide_eq_true hnext, Bool.or_true] at hk
  cases hk

end tick

/-! ### The two clock events on a running platform -/

/-- The timer one count later (R171). -/
def Timer.counted (t : Timer) : Timer := { t with counter := t.counter + 1 }

theorem tickDue_iff {t : Timer} : t.tickDue = true ↔ t.wake = some t.counter := decide_eq_true_iff

section clock
variable {s : State} (hrun : s.halted = false)
include hrun

theorem exec_evAdvance_of_due (hdue : s.st.wake = some s.st.counter) : exec .evAdvance s = .refused .tickDueFirst :=
  (whenRunning_of_running hrun _).trans (if_pos (tickDue_iff.mpr hdue))

theorem exec_evAdvance_of_not_due (hdue : s.st.wake ≠ some s.st.counter) :
    exec .evAdvance s = .next { s with st := s.st.counted, out := .none } :=
  (whenRunning_of_running hrun _).trans (if_neg (mt tickDue_iff.mp hdue))

theorem exec_evTick_of_due (hdue : s.st.wake = some s.st.counter) :
    exec .evTick s = .next { s with st := s.st.afterTick, out := .none } :=
  (whenRunning_of_running hrun _).trans (if_pos (tickDue_iff.mpr hdue))

theorem exec_evTick_of_not_due (hdue : s.st.wake ≠ some s.st.counter) : exec .evTick s = .refused .tickNotDue :=
  (whenRunning_of_running hrun _).trans (if_neg (mt tickDue_iff.mp hdue))

end clock

/-! ### The words of the register reads -/

theorem matchWord_low (m : BitVec 4) : (matchWord m).extractLsb' 0 4 = m := by
  revert m; decide

theorem matchWord_high (m : BitVec 4) : matchWord m &&& 0xFFFFFFF0 = 0 := by
  revert m; decide

theorem high32_append_low32 (c : Count) : high32 c ++ low32 c = c :=
  BitVec.extractLsb'_append_extractLsb'

end Sys2Proof.Machine
end

section
/-! SUPPORT. The free run, when nobody but the clock and the wake-up acts (42_system_timer.md R173; log 8): each of its
steps is a tick or a count, it reaches an armed deadline, and it fires every eligible channel. -/

namespace Sys2Proof.Machine

/-- The parameters are valid, the platform runs and the inbox is empty: the next step is the clock's or the wake-up's. -/
structure FreeRunning (s : State) : Prop where
  valid : s.params.valid = true
  running : s.halted = false
  idle : s.inbox = []

section steps
variable {s : State} (h : FreeRunning s)
include h

theorem FreeRunning.step_eq : step s = if s.st.tickDue then exec .evTick s else exec .evAdvance s := by
  simp [step, runNext, h.valid, h.idle, freeRun]

theorem FreeRunning.step_of_due (hdue : s.st.wake = some s.st.counter) : step s = exec .evTick s :=
  h.step_eq.trans (if_pos (tickDue_iff.mpr hdue))

theorem FreeRunning.step_of_not_due (hdue : s.st.wake ≠ some s.st.counter) :
    step s = .next { s with st := s.st.counted, out := .none } :=
  (h.step_eq.trans (if_neg (mt tickDue_iff.mp hdue))).trans (exec_evAdvance_of_not_due h.running hdue)

/-- Neither a count nor a tick writes what lets the free run go on. -/
theorem FreeRunning.withTimer (t : Timer) (o : Response) : FreeRunning { s with st := t, out := o } :=
  ⟨h.valid, h.running, h.idle⟩

end steps

theorem run_succ_of_step {s t : State} (h : step s = .next t) (n : Nat) :
    Sys2Proof.core.run (n + 1) s = Sys2Proof.core.run n t := by
  have hcore : Sys2Proof.core.step s = .next t := h
  simp only [Host.Core.run, hcore]

/-! ### The run to the deadline -/

/-- A count before the deadline comes brings it one count nearer. -/
theorem toNat_sub_succ {d c : Count} {n : Nat} (h : (d - c).toNat = n + 1) : (d - (c + 1)).toNat = n := by
  rw [sub_succ_count, BitVec.toNat_sub, h, show (1 : Count).toNat = 1 from rfl]
  have := (d - c).isLt
  omega

/-- As many counts as the deadline is away, one a step. -/
theorem run_to_deadline {d : Count} (n : Nat) {s : State} (hs : FreeRunning s) (hwake : s.st.wake = some d)
    (hn : (d - s.st.counter).toNat = n) :
    ∃ t, Sys2Proof.core.run n s = .next t ∧ t = { s with st := { s.st with counter := d }, out := t.out } := by
  induction n generalizing s with
  | zero =>
    have hd : d = s.st.counter := by
      simpa using BitVec.sub_eq_iff_eq_add.mp (BitVec.eq_of_toNat_eq (y := 0) hn)
    exact ⟨s, rfl, by rw [hd]⟩
  | succ n ih =>
    have hdue : s.st.wake ≠ some s.st.counter := fun hdue => by
      obtain rfl : d = s.st.counter := Option.some.inj (hwake.symm.trans hdue)
      simp at hn
    obtain ⟨t, hrun, ht⟩ := ih (hs.withTimer s.st.counted .none) hwake (toNat_sub_succ hn)
    exact ⟨t, (run_succ_of_step (hs.step_of_not_due hdue) n).trans hrun, ht⟩

/-! ### The run to a channel's own count -/

/-- The `n`-th state of the run from `s` is the first with channel `i` matched; its line is asserted there and the
counter is `c`. -/
def FirstFires (s : State) (i : Fin 4) (c : Count) (n : Nat) : Prop :=
  ∃ t : State, Sys2Proof.core.run n s = .next t ∧ t.st.isMatched i = true ∧ t.st.lines.get i = true ∧
    t.st.counter = c ∧
    ∀ (m : Nat) (u : State), m < n → Sys2Proof.core.run m s = .next u → u.st.isMatched i = false

section first
variable {s t : State} {i : Fin 4} {c : Count} {n : Nat}

theorem FirstFires.zero (hm : s.st.isMatched i = true) (hl : s.st.lines.get i = true) :
    FirstFires s i s.st.counter 0 :=
  ⟨s, rfl, hm, hl, rfl, fun _ _ hlt => absurd hlt (Nat.not_lt_zero _)⟩

/-- A step from a state where the channel is clear only puts the firing off. -/
theorem FirstFires.succ (hm : s.st.isMatched i = false) (hstep : step s = .next t) (h : FirstFires t i c n) :
    FirstFires s i c (n + 1) := by
  obtain ⟨v, hrun, hv, hl, hc, hearlier⟩ := h
  refine ⟨v, (run_succ_of_step hstep n).trans hrun, hv, hl, hc, fun m u hlt hu => ?_⟩
  cases m with
  | zero => cases hu; exact hm
  | succ m => exact hearlier m u (Nat.lt_of_succ_lt_succ hlt) ((run_succ_of_step hstep m).symm.trans hu)

end first

/-- The eligible channels (R160), those `Timer.nearest` selects from; every tick of an armed timer takes one away. -/
def Timer.eligibleList (t : Timer) : List (Fin 4) := channelIndexes.filter t.eligible

theorem length_eligibleList_le (t : Timer) : t.eligibleList.length ≤ 4 := List.length_filter_le _ _

/-- The tick leaves the eligible channels whose target is another count. -/
theorem eligibleList_afterTick (t : Timer) :
    t.afterTick.eligibleList = t.eligibleList.filter fun i => !decide (t.compare.get i = t.next) := by
  rw [Timer.eligibleList, Timer.eligibleList, List.filter_filter]
  refine congrArg (List.filter · channelIndexes) (funext fun i => ?_)
  rw [Timer.eligible, Timer.eligible, afterTick_isMatched, Bool.not_or, Bool.and_comm]

theorem length_eligibleList_afterTick_lt {t : Timer} (h : TimerArmed t) (hdue : t.wake = some t.counter) :
    t.afterTick.eligibleList.length < t.eligibleList.length := by
  obtain ⟨k, hk, htarget⟩ := h.target_of_due hdue
  have hmem : k ∈ t.eligibleList := List.mem_filter.mpr ⟨mem_channelIndexes k, hk⟩
  have hfires : ¬(!decide (t.compare.get k = t.next)) = true := by rw [decide_eq_true htarget]; decide
  rw [eligibleList_afterTick]
  exact List.length_filter_lt_length_iff_exists.mpr ⟨k, hmem, hfires⟩

/-- The count at which channel `i` fires, its delta from now (R180(c)). -/
def Timer.firingCount (t : Timer) (i : Fin 4) : Count := t.counter + (t.delta i).zeroExtend 64

/-- A bound on the steps to the firing of channel `i`: the counts to its target, and one tick for each eligible channel. -/
def Timer.stepBound (t : Timer) (i : Fin 4) : Nat := (t.delta i).toNat + t.eligibleList.length

theorem stepBound_le (t : Timer) (i : Fin 4) : t.stepBound i ≤ (t.delta i).toNat + 4 :=
  Nat.add_le_add_left (length_eligibleList_le _) _

section progress
variable {t : Timer} {i : Fin 4}

/-- A count that no tick waits for brings an eligible target one count nearer (R177). -/
theorem delta_counted (h : TimerArmed t) (hi : t.eligible i = true) (hdue : t.wake ≠ some t.counter) :
    (t.counted.delta i).toNat + 1 = (t.delta i).toNat :=
  delta_succ t.counter (t.compare.get i) fun h0 => hdue (h.due_of_target hi (by simpa using BitVec.sub_eq_iff_eq_add.mp h0))

theorem firingCount_counted (h : TimerArmed t) (hi : t.eligible i = true) (hdue : t.wake ≠ some t.counter) :
    t.counted.firingCount i = t.firingCount i := by
  have hone : t.counted.counter = t.counter + 1 := rfl
  rw [Timer.firingCount, Timer.firingCount, ← zeroExtend_sub_one (delta_counted h hi hdue), hone, BitVec.add_assoc,
    BitVec.add_comm 1, BitVec.sub_add_cancel]

theorem stepBound_counted_lt (h : TimerArmed t) (hi : t.eligible i = true) (hdue : t.wake ≠ some t.counter) :
    t.counted.stepBound i < t.stepBound i :=
  Nat.add_lt_add_right (Nat.lt_of_succ_le (Nat.le_of_eq (delta_counted h hi hdue))) _

/-- A tick does not move a target. -/
theorem delta_afterTick (t : Timer) (i : Fin 4) : t.afterTick.delta i = t.delta i := by
  simp [Timer.delta]

theorem firingCount_afterTick (t : Timer) (i : Fin 4) : t.afterTick.firingCount i = t.firingCount i := by
  rw [Timer.firingCount, delta_afterTick, afterTick_counter]
  rfl

theorem stepBound_afterTick_lt (h : TimerArmed t) (hdue : t.wake = some t.counter) :
    t.afterTick.stepBound i < t.stepBound i := by
  rw [Timer.stepBound, delta_afterTick]
  exact Nat.add_lt_add_left (length_eligibleList_afterTick_lt h hdue) _

/-- A due tick that fires the channel comes at the channel's own count. -/
theorem firingCount_of_due (h : TimerArmed t) (hdue : t.wake = some t.counter) (htarget : t.compare.get i = t.next) :
    t.firingCount i = t.counter := by
  rw [Timer.firingCount, Timer.delta, htarget, TimerArmed_next_of_due h hdue, BitVec.sub_self]
  exact BitVec.add_zero _

end progress

/-- Every step of the free run is a count, which brings the channel's target nearer, or a tick, which fires it or takes
another channel away; none moves the count it fires at (R175, R180(c)). -/
theorem exists_firstFires {i : Fin 4} (b : Nat) {s : State} (hs : FreeRunning s) (harmed : TimerArmed s.st)
    (hi : s.st.eligible i = true) (hb : s.st.stepBound i < b) : ∃ n < b, FirstFires s i (s.st.firingCount i) n := by
  induction b generalizing s with
  | zero => exact absurd hb (Nat.not_lt_zero _)
  | succ b ih =>
    have hclear : s.st.isMatched i = false := (Timer_eligible_iff _ _).mp hi
    have hbound {t : Timer} (ht : t.stepBound i < s.st.stepBound i) : t.stepBound i < b :=
      Nat.lt_of_lt_of_le ht (Nat.le_of_lt_succ hb)
    by_cases hdue : s.st.wake = some s.st.counter
    · have hstep := (hs.step_of_due hdue).trans (exec_evTick_of_due hs.running hdue)
      have hlater := hbound (stepBound_afterTick_lt harmed hdue)
      by_cases htarget : s.st.compare.get i = s.st.next
      · have hfires : FirstFires { s with st := s.st.afterTick, out := .none } i s.st.afterTick.counter 0 :=
          .zero (by simp [afterTick_isMatched, htarget]) (by simp [afterTick_lines_get, hclear, htarget])
        rw [afterTick_counter, ← firingCount_of_due harmed hdue htarget] at hfires
        exact ⟨1, Nat.succ_lt_succ (Nat.zero_lt_of_lt hlater), hfires.succ hclear hstep⟩
      · have hclear' : s.st.afterTick.isMatched i = false := by simp [afterTick_isMatched, hclear, htarget]
        obtain ⟨n, hn, hfires⟩ := ih (hs.withTimer s.st.afterTick .none) (afterTick_armed _)
          ((Timer_eligible_iff _ _).mpr hclear') hlater
        rw [firingCount_afterTick] at hfires
        exact ⟨n + 1, Nat.succ_lt_succ hn, hfires.succ hclear hstep⟩
    · have harmed' : TimerArmed s.st.counted :=
        TimerArmed_count harmed (Bool.eq_false_iff.mpr (mt tickDue_iff.mp hdue))
      obtain ⟨n, hn, hfires⟩ := ih (hs.withTimer s.st.counted .none) harmed' hi
        (hbound (stepBound_counted_lt harmed hi hdue))
      rw [firingCount_counted harmed hi hdue] at hfires
      exact ⟨n + 1, Nat.succ_lt_succ hn, hfires.succ hclear (hs.step_of_not_due hdue)⟩

end Sys2Proof.Machine
end

section
/-! The obligations of 42_system_timer.md. -/

namespace Sys2Proof.SystemTimer
open Machine

/-- Settles O33: the selected channel is the nearest one; equal targets have equal deltas. -/
theorem rescheduleArmsNearestEligible : Obligations.RescheduleArmsNearestEligible := by
  unfold Obligations.RescheduleArmsNearestEligible
  intro t
  constructor
  · rintro ⟨i, hi⟩
    cases hn : t.nearest with
    | none =>
      have hm := (Timer_nearest_none t).mp hn i
      rw [(Timer_eligible_iff t i).mp hi] at hm
      cases hm
    | some k =>
      obtain ⟨hk, hmin⟩ := Timer_nearest_some t k hn
      refine ⟨k, hk, hmin, fun j hj heq => ?_, Timer_reschedule_of_nearest hn⟩
      exact Timer_nearest_least hn hj (congrArg (· - low32 t.counter) heq)
  · intro hnone
    exact Timer_reschedule_of_none ((Timer_nearest_none t).mpr fun i => by simpa [Timer.eligible] using hnone i)

/-- Settles O35: a reschedule arms the timer, and an armed deadline is the current count exactly when an eligible target
is. -/
theorem zeroDeltaFiresImmediately : Obligations.ZeroDeltaFiresImmediately := by
  unfold Obligations.ZeroDeltaFiresImmediately
  constructor
  · intro s t i hrun hst hi htarget
    have harmed : TimerArmed s.st := hst ▸ Timer_reschedule_armed t
    have hdue := harmed.due_of_target hi htarget
    have hnext : s.st.compare.get i = s.st.next := htarget.trans (TimerArmed_next_of_due harmed hdue).symm
    have hclear := (Timer_eligible_iff _ _).mp hi
    refine ⟨hdue, fun u hu => ?_, _, exec_evTick_of_due hrun hdue, ?_, ?_⟩
    · rw [exec_evAdvance_of_due hrun hdue] at hu
      cases hu
    · simp [afterTick_isMatched, hnext]
    · simp [afterTick_lines_get, hclear, hnext]
  · intro t hdue
    rw [← reschedule_counter t] at hdue
    have harmed := Timer_reschedule_armed t
    obtain ⟨k, hk, htarget⟩ := harmed.target_of_due hdue
    rw [TimerArmed_next_of_due harmed hdue, reschedule_compare, reschedule_counter] at htarget
    rw [Timer_eligible_iff, reschedule_isMatched] at hk
    exact ⟨k, (Timer_eligible_iff t k).mpr hk, htarget⟩

/-- Settles O40: the four turns of the loop, put together to one mask. -/
theorem matchWriteAcknowledges : Obligations.MatchWriteAcknowledges := by
  unfold Obligations.MatchWriteAcknowledges
  refine ⟨fun s wdata hrun => ⟨(s.st.acknowledge (ackMask wdata)).lines, ?_, fun i => ?_⟩, fun _ => rfl⟩
  · have hrow : exec (.stWrMatch wdata) s = _ := whenRunning_of_running hrun _
    rw [hrow, acknowledge_eq_mask]
    rfl
  · rw [acknowledge_lines_get, ackMask_getLsbD]

/-- Settles O43: the tick fires the due channels, and on an armed timer these are all the eligible ones at this count. -/
theorem tickFiresEveryDueChannel : Obligations.TickFiresEveryDueChannel := by
  unfold Obligations.TickFiresEveryDueChannel
  refine ⟨fun s hrun hdue => ?_, fun s t hrun hdue htick => ?_, rfl⟩
  · refine ⟨s.st.afterTick.matched, s.st.afterTick.lines, _, rfl, ?_, fun i hclear htarget => ?_, fun i hstays => ?_,
      fun harmed => ?_⟩
    · rw [← afterTick_eq]
      exact exec_evTick_of_due hrun hdue
    · exact ⟨by rw [← Timer.isMatched, afterTick_isMatched, decide_eq_true htarget, Bool.or_true],
        by rw [afterTick_lines_get, if_pos ⟨hclear, htarget⟩]⟩
    · rw [← Timer.isMatched, afterTick_isMatched, afterTick_lines_get]
      rcases hstays with hmatched | hother
      · simp [hmatched]
      · simp [hother]
    · rw [← afterTick_eq]
      exact afterTick_not_due harmed hdue
  · rw [exec_evTick_of_not_due hrun hdue] at htick
    cases htick

/-- Settles O59: the bound is the channel's delta and the number of eligible channels, which are four at most. -/
theorem everyEligibleChannelFiresWithinItsDelta : Obligations.EveryEligibleChannelFiresWithinItsDelta := by
  unfold Obligations.EveryEligibleChannelFiresWithinItsDelta
  intro s i hvalid hrun hidle harmed hi
  obtain ⟨n, hn, t, hfires⟩ := exists_firstFires _ ⟨hvalid, hrun, hidle⟩ harmed hi (Nat.lt_succ_self _)
  exact ⟨n, t, Nat.le_trans (Nat.le_of_lt_succ hn) (stepBound_le _ _), hfires⟩

/-- Settles O60: the counts up to the deadline, where the tick is due. -/
theorem freeRunCountsToTheDeadline : Obligations.FreeRunCountsToTheDeadline := by
  unfold Obligations.FreeRunCountsToTheDeadline
  intro s d hvalid hrun hidle hwake
  have hs : FreeRunning s := ⟨hvalid, hrun, hidle⟩
  obtain ⟨t, ht, hframe⟩ := run_to_deadline _ hs hwake rfl
  refine ⟨t, ht, hframe, ?_⟩
  rw [hframe]
  exact (hs.withTimer { s.st with counter := d } t.out).step_of_due hwake

/-- Settles O34: with no channel eligible a reschedule selects none. -/
theorem rescheduleDisarmsWhenAllMatched : Obligations.RescheduleDisarmsWhenAllMatched := by
  unfold Obligations.RescheduleDisarmsWhenAllMatched
  intro t hfull
  exact Timer_reschedule_of_none ((Timer_nearest_none t).mpr ((Timer_matched_eq_full t).mp hfull))

/-- Settles O36: the word is the mask, extended by zeros. -/
theorem matchReadReturnsMask : Obligations.MatchReadReturnsMask := by
  unfold Obligations.MatchReadReturnsMask
  refine ⟨fun s hrun => ?_, rfl⟩
  exact ⟨matchWord s.st.matched, whenRunning_of_running hrun _, matchWord_low _, matchWord_high _⟩

/-- Settles O37: the two words are the counter's halves. -/
theorem counterReadsReturnHalves : Obligations.CounterReadsReturnHalves := by
  unfold Obligations.CounterReadsReturnHalves
  refine ⟨fun s hrun => ?_, rfl, rfl⟩
  exact ⟨low32 s.st.counter, high32 s.st.counter, whenRunning_of_running hrun _, whenRunning_of_running hrun _,
    high32_append_low32 _⟩

/-- Settles O38: the counter's halves are read-only, and a write to one is rejected at its offset. -/
theorem counterWritesAreRejected : Obligations.CounterWritesAreRejected := by
  unfold Obligations.CounterWritesAreRejected
  intro s wdata hrun
  exact ⟨writeReadOnly_of_running hrun rfl, writeReadOnly_of_running hrun rfl, rfl, rfl⟩

/-- Settles O39: the meaning of the compare read at each channel. -/
theorem compareReadsReturnTargets : Obligations.CompareReadsReturnTargets := by
  unfold Obligations.CompareReadsReturnTargets
  refine ⟨fun s hrun => ?_, rfl, rfl, rfl, rfl⟩
  have hread (k : Fin 4) : readCompare k s = .next { s with out := .rdata (s.st.compare.get k) } :=
    whenRunning_of_running hrun _
  exact ⟨hread 0, hread 1, hread 2, hread 3⟩

/-- Settles O41: the meaning of the compare write at each channel. -/
theorem compareWritesRetargetOneChannel : Obligations.CompareWritesRetargetOneChannel := by
  unfold Obligations.CompareWritesRetargetOneChannel
  intro s w hrun
  have hwrite (k : Fin 4) : writeCompare k w s = .next { s with
      st := Timer.reschedule { s.st with compare := s.st.compare.set k w }, out := .none } :=
    whenRunning_of_running hrun _
  exact ⟨hwrite 0, hwrite 1, hwrite 2, hwrite 3, rfl, rfl, rfl, rfl⟩

/-- Settles O42: the meaning of the count, due or not. -/
theorem advanceAddsOneCount : Obligations.AdvanceAddsOneCount := by
  unfold Obligations.AdvanceAddsOneCount
  refine ⟨fun _ hrun hdue => exec_evAdvance_of_not_due hrun hdue, fun s t hrun hdue hcount => ?_, rfl⟩
  rw [exec_evAdvance_of_due hrun hdue] at hcount
  cases hcount

/-- Settles O44: each clock event names the reason it is not enabled. -/
theorem clockEventsNotEnabledAreRefused : Obligations.ClockEventsNotEnabledAreRefused := by
  unfold Obligations.ClockEventsNotEnabledAreRefused
  intro s hrun
  exact ⟨exec_evAdvance_of_due hrun, exec_evTick_of_not_due hrun⟩

end Sys2Proof.SystemTimer
end

section
/-! SUPPORT. What a push past the guard answers (43_framebuffer.md R190 to R195, R208): each of the two fatal requests,
with the latches of R192 at the offsets of R99. -/

namespace Sys2Proof.Machine

section push
variable {s : State} {a wdata : Word}

/-- The seven request words, at their offsets (R192; 30_encoding.md R99). -/
theorem latchRequest_eq (s : State) (a : Word) :
    latchRequest s a = { s.fb with
      xres := memRead s a, yres := memRead s (a + 4)
      xresVirtual := memRead s (a + 8), yresVirtual := memRead s (a + 12)
      bpp := memRead s (a + 20), xoffset := memRead s (a + 24), yoffset := memRead s (a + 28) } := by
  rw [latchRequest, show a + offXres = a from BitVec.add_zero a]
  rfl

/-- An Idle channel of a running platform begins the protocol (R191). -/
theorem exec_fbWrCmd_idle (hrun : s.halted = false) (hidle : s.fbctl.pending = false) :
    exec (.fbWrCmd wdata) s = configure (descriptorAddr wdata) s := by
  rw [exec, execFbWrCmd, whenRunning_of_running hrun, hidle]
  rfl

/-- While FBCTL is pending a push is rejected (R191). -/
theorem exec_fbWrCmd_pending (hrun : s.halted = false) (hpending : s.fbctl.pending = true) :
    exec (.fbWrCmd wdata) s = rejectWrite s ⟨.fbctl, .reentrant, 0x00⟩ := by
  rw [exec, execFbWrCmd, whenRunning_of_running hrun, if_pos hpending]

/-- A descriptor outside the register windows is latched, then judged (R192). -/
theorem configure_outside_windows (hwin : s.params.touchesSomeWindow a descriptorBytes = false) :
    configure a s = validateRequest a { s with fb := latchRequest s a, draws := s.draws + 1 } := by
  rw [configure, hwin]
  rfl

/-- A depth other than 16 is fatal, whatever the geometry (R193). -/
theorem configure_wrongDepth (hwin : s.params.touchesSomeWindow a descriptorBytes = false)
    (hbpp : (latchRequest s a).bpp ≠ 16) :
    configure a s = .next (fatalPush s a (.bpp (latchRequest s a).bpp)) :=
  (configure_outside_windows hwin).trans (if_pos hbpp)

/-- A geometry beyond the bound is fatal at depth 16 (R195). -/
theorem configure_oversize (hwin : s.params.touchesSomeWindow a descriptorBytes = false)
    (hbpp : (latchRequest s a).bpp = 16)
    (hfits : geometryFits s.params.vramSize (latchRequest s a).xres (latchRequest s a).yres = false) :
    configure a s = .next (fatalPush s a (.size (latchRequest s a).xres (latchRequest s a).yres)) :=
  (configure_outside_windows hwin).trans ((if_neg (not_not_intro hbpp)).trans (if_pos hfits))

/-- The bound of R195 fails at one of its three tests, on exact integers (R196). -/
theorem geometryFits_eq_false {n : Nat} {x y : Word} :
    geometryFits n x y = false ↔
      exactPitch x > 0xFFFFFFFF ∨ exactSize x y > 0xFFFFFFFF ∨ exactSize x y > n := by
  simp only [geometryFits, Bool.and_eq_false_iff, decide_eq_false_iff_not, Nat.not_le, or_assoc, gt_iff_lt]

end push

end Sys2Proof.Machine
end

section
/-! SUPPORT. Words of guest memory around a write (20_memory.md R66, R69, R76): a word apart from the one written reads as
before, and a word of guest RAM depends on memory alone, not on the draws. -/

namespace Sys2Proof.Machine

section words
variable {s : State} {p : Params} {a j k v : Word}

/-- What holds at every small offset holds of the four bytes of a word. -/
theorem forall_bytes {P : Word → Prop} (h : ∀ i : Word, i.toNat < 4 → P (a + i)) :
    P a ∧ P (a + 1) ∧ P (a + 2) ∧ P (a + 3) :=
  ⟨BitVec.add_zero a ▸ h 0 (by decide), h 1 (by decide), h 2 (by decide), h 3 (by decide)⟩

/-- A byte of a word lies outside every word apart from it. -/
theorem inWord_of_apart (hb : banksAreHigh p = true) (hj : j.toNat ≤ 60) (hk : k.toNat ≤ 60)
    (hjk : j.toNat + 4 ≤ k.toNat ∨ k.toNat + 4 ≤ j.toNat) {i : Word} (hi : i.toNat < 4) :
    inWord p (a + j) (a + k + i) = false := by
  have apart (l : Word) (hl : l.toNat < 4) : p.unbank (a + k + i) ≠ p.unbank (a + j + l) := by
    rw [BitVec.add_assoc, BitVec.add_assoc]
    exact unbank_offsets_ne p hb a _ _ (by bv_omega) (by bv_omega) (by bv_omega)
  obtain ⟨h0, h1, h2, h3⟩ := forall_bytes (P := (p.unbank (a + k + i) ≠ p.unbank ·)) apart
  simp only [inWord, h0, h1, h2, h3, decide_false, Bool.or_false]

theorem readByte_memWrite_of_outside (hwf : s.mem.wf = true) {b : Word} (hb : inWord s.params a b = false) :
    readByte (memWrite s a v) b = readByte s b := by
  have hpeek : peek (memWrite s a v) b = peek s b := ramByte_putWord_of_outside s.mem hwf s.params a v b hb
  rw [readByte, readByte, hpeek]
  rfl

/-- A write leaves a word apart from the one written alone. -/
theorem memRead_memWrite_of_apart (hwf : s.mem.wf = true) (hb : banksAreHigh s.params = true) (hj : j.toNat ≤ 60)
    (hk : k.toNat ≤ 60) (hjk : j.toNat + 4 ≤ k.toNat ∨ k.toNat + 4 ≤ j.toNat) :
    memRead (memWrite s (a + j) v) (a + k) = memRead s (a + k) := by
  have byte (i : Word) (hi : i.toNat < 4) :
      readByte (memWrite s (a + j) v) (a + k + i) = readByte s (a + k + i) :=
    readByte_memWrite_of_outside hwf (inWord_of_apart hb hj hk hjk hi)
  obtain ⟨h0, h1, h2, h3⟩ := forall_bytes (P := fun b => readByte (memWrite s (a + j) v) b = readByte s b) byte
  rw [memRead, memRead, h0, h1, h2, h3]

/-- A byte of guest RAM is what memory lists (R69). -/
theorem readByte_of_isRam (h : s.params.isRam a = true) : readByte s a = s.mem.lookup (s.params.unbank a).toNat :=
  readByte_of_peek (if_pos h)

theorem memRead_of_wordIsRam {t : State} (hmem : t.mem = s.mem) (hparams : t.params = s.params)
    (h : wordIsRam s.params a = true) : memRead t a = memRead s a := by
  have byte (b : Word) (hb : s.params.isRam b = true) : readByte t b = readByte s b := by
    rw [readByte_of_isRam hb, readByte_of_isRam (hparams ▸ hb), hmem, hparams]
  simp only [wordIsRam, Bool.and_eq_true] at h
  obtain ⟨⟨⟨h0, h1⟩, h2⟩, h3⟩ := h
  rw [memRead, memRead, byte _ h0, byte _ h1, byte _ h2, byte _ h3]

/-- A word inside a descriptor of guest RAM is a word of guest RAM. -/
theorem wordIsRam_of_descriptor (h : ∀ k : Word, k.toNat < 40 → p.isRam (a + k) = true) (hk : k.toNat ≤ 36) :
    wordIsRam p (a + k) = true := by
  have byte (i : Word) (hi : i.toNat < 4) : p.isRam (a + k + i) = true := by
    rw [BitVec.add_assoc]
    exact h _ (by bv_omega)
  obtain ⟨h0, h1, h2, h3⟩ := forall_bytes (P := (p.isRam · = true)) byte
  simp only [wordIsRam, h0, h1, h2, h3, Bool.and_true]

end words

end Sys2Proof.Machine
end

section
/-! SUPPORT. Memory after an accepted push (43_framebuffer.md R198): three words written, each of which reads back, and
every other word of the descriptor as it was. -/

namespace Sys2Proof.Machine

section writeBack
variable {s : State} {a : Word} (hwf : s.mem.wf = true)
include hwf

theorem memWrite_wf (v : Word) : (memWrite s a v).mem.wf = true := putWord_wf _ hwf _ _ _

/-- A byte in none of the three output words reads as before. -/
theorem peek_writeBack_of_outside {b : Word} (hpitch : inWord s.params (a + offPitch) b = false)
    (hbase : inWord s.params (a + offBase) b = false) (hsize : inWord s.params (a + offSize) b = false) :
    peek (writeBack s a) b = peek s b :=
  calc peek (writeBack s a) b
    _ = peek (memWrite (memWrite s (a + offPitch) s.fb.pitch) (a + offBase) s.fb.base) b :=
      ramByte_putWord_of_outside _ (memWrite_wf (memWrite_wf hwf _) _) _ _ _ _ hsize
    _ = peek (memWrite s (a + offPitch) s.fb.pitch) b := ramByte_putWord_of_outside _ (memWrite_wf hwf _) _ _ _ _ hbase
    _ = peek s b := ramByte_putWord_of_outside _ hwf _ _ _ _ hpitch

variable (hb : banksAreHigh s.params = true)
include hb

theorem memRead_memWrite_same (hram : wordIsRam s.params a = true) (v : Word) : memRead (memWrite s a v) a = v :=
  (GuestMemory.memReadReturnsWhatMemWriteStored s a v hwf hb hram).1

/-- The pitch reads back: base and size go to other words. -/
theorem memRead_writeBack_pitch (hram : wordIsRam s.params (a + offPitch) = true) :
    memRead (writeBack s a) (a + offPitch) = s.fb.pitch := by
  have wf1 := memWrite_wf (a := a + offPitch) hwf s.fb.pitch
  have wf2 := memWrite_wf (a := a + offBase) wf1 s.fb.base
  rw [writeBack, memRead_memWrite_of_apart wf2 hb (by decide) (by decide) (by decide),
    memRead_memWrite_of_apart wf1 hb (by decide) (by decide) (by decide), memRead_memWrite_same hwf hb hram]

/-- The base reads back: size goes to another word. -/
theorem memRead_writeBack_base (hram : wordIsRam s.params (a + offBase) = true) :
    memRead (writeBack s a) (a + offBase) = s.fb.base := by
  have wf1 := memWrite_wf (a := a + offPitch) hwf s.fb.pitch
  have wf2 := memWrite_wf (a := a + offBase) wf1 s.fb.base
  rw [writeBack, memRead_memWrite_of_apart wf2 hb (by decide) (by decide) (by decide),
    memRead_memWrite_same wf1 hb hram]

/-- The size, written last, reads back. -/
theorem memRead_writeBack_size (hram : wordIsRam s.params (a + offSize) = true) :
    memRead (writeBack s a) (a + offSize) = s.fb.size :=
  memRead_memWrite_same (memWrite_wf (memWrite_wf hwf _) _) hb hram _

/-- A word below the pitch, or between the pitch and the base, is none of the three written. -/
theorem memRead_writeBack_of_apart {k : Word} (hk : k.toNat ≤ 12 ∨ 20 ≤ k.toNat ∧ k.toNat ≤ 28) :
    memRead (writeBack s a) (a + k) = memRead s (a + k) := by
  have hpitch : offPitch.toNat = 16 := rfl
  have hbase : offBase.toNat = 32 := rfl
  have hsize : offSize.toNat = 36 := rfl
  have wf1 := memWrite_wf (a := a + offPitch) hwf s.fb.pitch
  have wf2 := memWrite_wf (a := a + offBase) wf1 s.fb.base
  rw [writeBack, memRead_memWrite_of_apart wf2 hb (by omega) (by omega) (by omega),
    memRead_memWrite_of_apart wf1 hb (by omega) (by omega) (by omega),
    memRead_memWrite_of_apart hwf hb (by omega) (by omega) (by omega)]

end writeBack

/-- The state whose latches an accepted push writes back: the request latched and its geometry derived (R192 to R197). -/
def placedRequest (s : State) (a : Word) : State :=
  { s with fb := deriveGeometry s.params a (latchRequest s a), draws := s.draws + 1 }

/-- What follows the write-back, presentation and doorbell, leaves memory alone (R199, R200). -/
theorem peek_acceptedPush (s : State) (a b : Word) :
    peek (acceptedPush s a) b = peek (writeBack (placedRequest s a) a) b :=
  rfl

theorem memRead_acceptedPush (s : State) (a b : Word) :
    memRead (acceptedPush s a) b = memRead (writeBack (placedRequest s a) a) b :=
  rfl

end Sys2Proof.Machine
end

section
/-! SUPPORT. The placed buffer (43_framebuffer.md R197): under valid parameters every byte of it lies in VRAM, which no
address of a register window does (93_implementation_defined.md U9). -/

namespace Sys2Proof.Machine

section bank
variable {p : Params} {v : Word}

/-- The bank bits of another address, put on an address that has none, are cleared again. -/
theorem unbank_or_bank (hv : v &&& p.bankMask = 0#32) (a : Word) : p.unbank (v ||| (a &&& p.bankMask)) = v :=
  calc (v ||| (a &&& p.bankMask)) &&& ~~~p.bankMask
    _ = v &&& ~~~p.bankMask ||| v &&& p.bankMask := by
      rw [BitVec.and_or_distrib_right, BitVec.and_assoc, BitVec.and_not_self, hv]
      exact congrArg _ BitVec.and_zero
    _ = v := by rw [← BitVec.and_or_distrib_left, BitVec.or_comm, BitVec.or_not_self, BitVec.and_allOnes]

theorem or_bank_and_bankMask (hv : v &&& p.bankMask = 0#32) (a : Word) :
    (v ||| (a &&& p.bankMask)) &&& p.bankMask = a &&& p.bankMask := by
  rw [BitVec.and_or_distrib_right, hv, BitVec.zero_or, BitVec.and_assoc, BitVec.and_self]

/-- To put bank bits on an address that has none is to add them. -/
theorem or_bank_eq_add (hv : v &&& p.bankMask = 0#32) (a : Word) :
    v ||| (a &&& p.bankMask) = v + (a &&& p.bankMask) := by
  refine (BitVec.add_eq_or_of_and_eq_zero _ _ ?_).symm
  rw [BitVec.and_comm a, ← BitVec.and_assoc, hv, BitVec.zero_and]

end bank

section buffer
variable {p : Params} (hp : p.valid = true) (a : Word)
include hp

theorem vramOrigin_and_bankMask : p.vramOrigin &&& p.bankMask = 0#32 := by
  simp only [Params.valid, Params.vramUnbanked, Bool.and_eq_true, decide_eq_true_eq] at hp
  obtain ⟨-, -, -, -, ⟨horigin, -⟩, -⟩ := hp
  exact horigin

theorem vram_end_le : p.vramOrigin.toNat + p.vramSize ≤ 2 ^ 32 := by
  simp only [Params.valid, Bool.and_eq_true, decide_eq_true_eq] at hp
  obtain ⟨-, -, -, hend, -⟩ := hp
  exact hend

/-- An offset below VRAM_SIZE from the origin does not wrap, and has no bank bit (00_scope.md R8). -/
theorem vram_offset {j : Nat} (hj : j < p.vramSize) :
    (p.vramOrigin + BitVec.ofNat 32 j).toNat = p.vramOrigin.toNat + j ∧
      (p.vramOrigin + BitVec.ofNat 32 j) &&& p.bankMask = 0#32 := by
  have hend := vram_end_le hp
  have hnat : (p.vramOrigin + BitVec.ofNat 32 j).toNat = p.vramOrigin.toNat + j := by
    rw [BitVec.toNat_add, BitVec.toNat_ofNat]
    omega
  exact ⟨hnat, Scope.vramRegionHasNoBankBit p _ hp (by omega) (by omega)⟩

/-- Byte `j` of the placed buffer is byte `j` of the VRAM region, under the bank of `a`. -/
theorem isVram_placed {j : Nat} (hj : j < p.vramSize) :
    p.isVram ((p.vramOrigin ||| (a &&& p.bankMask)) + BitVec.ofNat 32 j) = true := by
  obtain ⟨hnat, hbank⟩ := vram_offset hp hj
  have hunbank : p.unbank ((p.vramOrigin ||| (a &&& p.bankMask)) + BitVec.ofNat 32 j)
      = p.vramOrigin + BitVec.ofNat 32 j := by
    rw [or_bank_eq_add (vramOrigin_and_bankMask hp), BitVec.add_assoc, BitVec.add_comm (a &&& p.bankMask),
      ← BitVec.add_assoc, ← or_bank_eq_add hbank, unbank_or_bank hbank]
  rw [Params.isVram, hunbank, hnat]
  simpa using hj

end buffer

/-- Two ranges that meet have an address in common. -/
theorem exists_common_of_rangesMeet {a b : Word} {m n : Nat} (h : rangesMeet a m b n = true) :
    ∃ j < m, ∃ k < n, a + BitVec.ofNat 32 j = b + BitVec.ofNat 32 k := by
  simp only [rangesMeet, Bool.and_eq_true, Bool.or_eq_true, decide_eq_true_eq] at h
  obtain ⟨hm, hn, hb | ha⟩ := h
  · refine ⟨(b - a).toNat, hb, 0, hn, ?_⟩
    rw [BitVec.ofNat_toNat, BitVec.setWidth_eq, BitVec.add_zero, BitVec.add_comm, BitVec.sub_add_cancel]
  · refine ⟨0, hm, (a - b).toNat, ha, ?_⟩
    rw [BitVec.ofNat_toNat, BitVec.setWidth_eq, BitVec.add_zero, BitVec.add_comm b, BitVec.sub_add_cancel]

/-- An address of the placed buffer lies in VRAM, an address of a window does not (U9; log 16). -/
theorem placed_not_touchesWindow {p : Params} (hp : p.valid = true) (a : Word) {n : Nat} (hn : n ≤ p.vramSize)
    (d : Device) : p.touchesWindow (p.vramOrigin ||| (a &&& p.bankMask)) n d = false := by
  refine Bool.eq_false_iff.mpr fun htouch => ?_
  obtain ⟨j, hj, k, hk, hcommon⟩ := exists_common_of_rangesMeet htouch
  have hvram := isVram_placed hp a (Nat.lt_of_lt_of_le hj hn)
  rw [hcommon, (window_address_clear hp hk).2] at hvram
  cases hvram

end Sys2Proof.Machine
end

section
/-! The obligations of 43_framebuffer.md. -/

namespace Sys2Proof.FramebufferChannel
open Machine

/-- Settles O24: the descriptor is latched, passes the depth test and fails the bound. -/
theorem oversizeGeometryIsFatal : Obligations.OversizeGeometryIsFatal := by
  unfold Obligations.OversizeGeometryIsFatal
  intro s wdata hrun hidle hwin hbpp hsize
  have hlatch := latchRequest_eq s (descriptorAddr wdata)
  have hfatal := configure_oversize hwin (by rw [hlatch]; exact hbpp)
    (by rw [hlatch]; exact geometryFits_eq_false.mpr hsize)
  rw [exec_fbWrCmd_idle hrun hidle, hfatal, fatalPush, hlatch, hbpp]

/-- Settles O25: the state an accepted push leaves, read off latch by latch; its products fit in a word (R196). -/
theorem acceptedPushConfiguresFramebuffer : Obligations.AcceptedPushConfiguresFramebuffer := by
  unfold Obligations.AcceptedPushConfiguresFramebuffer
  intro s wdata hrun hidle hacc a
  have ⟨_, hbpp, hfits, _⟩ := hacc
  obtain ⟨hpitch, hsize, -⟩ := geometry_exact hfits
  have hxres : memRead s (a + offXres) = memRead s a := congrArg (memRead s) (BitVec.add_zero a)
  rw [← hxres]
  exact ⟨_, exec_fbWrCmd_accepted hrun hidle hacc,
    rfl, rfl, rfl, rfl, rfl, hbpp, rfl, rfl, hpitch, hsize, rfl, rfl, rfl, rfl⟩

/-- Settles O26: the ten words of the descriptor are ten words of RAM under any bank, and three of them are written. -/
theorem writeBackReadsBack : Obligations.WriteBackReadsBack := by
  unfold Obligations.WriteBackReadsBack
  intro s wdata hrun hidle hacc hwf hb hdesc a
  have hram {k : Word} (hk : k.toNat ≤ 36) : wordIsRam s.params (a + k) = true := wordIsRam_of_descriptor hdesc hk
  refine ⟨_, exec_fbWrCmd_accepted hrun hidle hacc, ?_, ?_, ?_, fun k hk => ?_⟩
  · exact (memRead_acceptedPush s a _).trans (memRead_writeBack_pitch (s := placedRequest s a) hwf hb (hram (by decide)))
  · exact (memRead_acceptedPush s a _).trans (memRead_writeBack_base (s := placedRequest s a) hwf hb (hram (by decide)))
  · exact (memRead_acceptedPush s a _).trans (memRead_writeBack_size (s := placedRequest s a) hwf hb (hram (by decide)))
  · have hrequest : k.toNat ≤ 12 ∨ 20 ≤ k.toNat ∧ k.toNat ≤ 28 := by
      simp only [List.mem_cons, List.not_mem_nil, or_false] at hk
      rcases hk with rfl | rfl | rfl | rfl | rfl | rfl | rfl <;> decide
    calc memRead (acceptedPush s a) (a + k)
      _ = memRead (writeBack (placedRequest s a) a) (a + k) := memRead_acceptedPush s a _
      _ = memRead (placedRequest s a) (a + k) :=
        memRead_writeBack_of_apart (s := placedRequest s a) hwf hb hrequest
      _ = memRead s (a + k) := memRead_of_wordIsRam rfl rfl (hram (by omega))

/-- Settles O27: each of the three stores leaves every byte outside its word alone. -/
theorem pushWritesOnlyThreeWords : Obligations.PushWritesOnlyThreeWords := by
  unfold Obligations.PushWritesOnlyThreeWords
  intro s wdata hrun hidle hacc hwf
  refine ⟨_, exec_fbWrCmd_accepted hrun hidle hacc, fun b hpitch hbase hsize => ?_⟩
  exact (peek_acceptedPush s _ b).trans (peek_writeBack_of_outside (s := placedRequest s _) hwf hpitch hbase hsize)

/-- Settles O29: the origin has no bank bit, and the buffer's bytes are VRAM's, which no window holds. -/
theorem placedBaseUnbanksToOrigin : Obligations.PlacedBaseUnbanksToOrigin := by
  unfold Obligations.PlacedBaseUnbanksToOrigin
  intro p a hp
  refine ⟨unbank_placed_base hp a, or_bank_and_bankMask (vramOrigin_and_bankMask hp) a, fun n hn => ?_⟩
  simp only [Params.touchesSomeWindow, placed_not_touchesWindow hp a hn, Bool.or_false]

/-- Settles O19: the meaning of the identity read at FBCTL, with its id 1. -/
theorem framebufferIdentityReadAcknowledges : Obligations.FramebufferIdentityReadAcknowledges := by
  unfold Obligations.FramebufferIdentityReadAcknowledges
  exact ⟨fun s hrun => mailboxIdentity_of_running hrun .fbctl, rfl⟩

/-- Settles O20: the meaning of the status read at FBCTL. -/
theorem framebufferStatusReadReportsPending : Obligations.FramebufferStatusReadReportsPending := by
  unfold Obligations.FramebufferStatusReadReportsPending
  exact ⟨fun s hrun => mailboxStatus_of_running hrun .fbctl, rfl⟩

/-- Settles O21: STATUS is read-only, and a write to it is rejected at its offset. -/
theorem framebufferStatusWriteIsRejected : Obligations.FramebufferStatusWriteIsRejected := by
  unfold Obligations.FramebufferStatusWriteIsRejected
  intro s wdata hrun
  exact ⟨writeReadOnly_of_running hrun rfl, rfl⟩

/-- Settles O22: the guard comes before the protocol, and the identity read lifts it. -/
theorem reentrantPushIsDropped : Obligations.ReentrantPushIsDropped := by
  unfold Obligations.ReentrantPushIsDropped
  intro s wdata hrun hpending
  exact ⟨exec_fbWrCmd_pending hrun hpending, _, mailboxIdentity_of_running hrun .fbctl, rfl⟩

/-- Settles O23: the descriptor is latched and fails the depth test, the first one. -/
theorem wrongDepthIsFatal : Obligations.WrongDepthIsFatal := by
  unfold Obligations.WrongDepthIsFatal
  intro s wdata hrun hidle hwin hbpp
  have hlatch := latchRequest_eq s (descriptorAddr wdata)
  have hfatal := configure_wrongDepth hwin (by rw [hlatch]; exact hbpp)
  rw [exec_fbWrCmd_idle hrun hidle, hfatal, fatalPush, hlatch]

/-- Settles O28: a push reads its value through the descriptor's address, which has no tag. -/
theorem pushTagIsIgnored : Obligations.PushTagIsIgnored := by
  unfold Obligations.PushTagIsIgnored
  intro s wdata wdata' htag
  have haddr : descriptorAddr wdata = descriptorAddr wdata' := htag
  rw [exec, exec, execFbWrCmd, execFbWrCmd, haddr]

/-- Settles O31: the meaning of a refresh, and a pitch that is twice the width. -/
theorem refreshPresentsTheView : Obligations.RefreshPresentsTheView := by
  unfold Obligations.RefreshPresentsTheView
  refine ⟨fun s ok hrun => whenRunning_of_running hrun _, fun s hrun henabled hexact => ?_, fun _ => rfl⟩
  obtain ⟨-, hpitch, -⟩ := hexact hrun henabled
  bv_omega

end Sys2Proof.FramebufferChannel
end

section
/-! SUPPORT. Save and restore on a running platform (44_host_operations.md R220, R221): the record of a save, and what the
two events answer. -/

namespace Sys2Proof.Machine

@[simp] theorem saveRecord_compare (t : Timer) : (saveRecord t).compare = t.compare := rfl
@[simp] theorem saveRecord_mask (t : Timer) : (saveRecord t).mask = t.matched := matchWord_low t.matched

/-- A save produces no record that a restore refuses (R223). -/
@[simp] theorem saveRecord_wellFormed (t : Timer) : (saveRecord t).wellFormed = true :=
  decide_eq_true (matchWord_high t.matched)

section restoreTimer
variable (r : SaveRecord) (c : Count)

@[simp] theorem restoreTimer_counter : (restoreTimer r c).counter = c := reschedule_counter _
@[simp] theorem restoreTimer_compare : (restoreTimer r c).compare = r.compare := reschedule_compare _
@[simp] theorem restoreTimer_matched : (restoreTimer r c).matched = r.mask := reschedule_matched _

end restoreTimer

section events
variable {s : State} (hrun : s.halted = false)
include hrun

theorem exec_evSave_of_running : exec .evSave s = .next { s with out := .record (saveRecord s.st) } :=
  whenRunning_of_running hrun _

theorem exec_evRestore_of_wellFormed {r : SaveRecord} (hwf : r.wellFormed = true) (c : Count) :
    exec (.evRestore r c) s = .next (resetWith s (restoreTimer r c)) :=
  (whenRunning_of_running hrun _).trans (if_pos hwf)

end events

end Sys2Proof.Machine
end

section
/-! The obligations of 44_host_operations.md. -/

namespace Sys2Proof.HostOperations
open Machine

/-- Settles O48: the record of the save is well formed, so the restore takes it and resets everything but the timer. -/
theorem restoreOfSaveKeepsTimerLosesPending : Obligations.RestoreOfSaveKeepsTimerLosesPending := by
  unfold Obligations.RestoreOfSaveKeepsTimerLosesPending
  intro s c hrun
  have hrestore := exec_evRestore_of_wellFormed (s := { s with out := .record (saveRecord s.st) }) hrun
    (saveRecord_wellFormed s.st) c
  refine ⟨_, _, saveRecord s.st, exec_evSave_of_running hrun, rfl, hrestore, ?_, ?_, ?_, resetWith_channel _ _, rfl, rfl⟩
  · rw [resetWith_st, restoreTimer_compare, saveRecord_compare]
  · rw [resetWith_st, restoreTimer_matched, saveRecord_mask]
  · rw [resetWith_st, restoreTimer_counter]

/-- Settles O46: the record is that of the timer, with the mask extended by zeros. -/
theorem saveReturnsThePersistedState : Obligations.SaveReturnsThePersistedState := by
  unfold Obligations.SaveReturnsThePersistedState
  refine ⟨fun s hrun => ?_, rfl⟩
  exact ⟨saveRecord s.st, exec_evSave_of_running hrun, saveRecord_compare _, saveRecord_mask _, saveRecord_wellFormed _⟩

/-- Settles O47: the meaning of a restore, and lines that are driven from the record's mask. -/
theorem restoreRebuildsFromTheRecord : Obligations.RestoreRebuildsFromTheRecord := by
  unfold Obligations.RestoreRebuildsFromTheRecord
  intro s r c hrun hwf
  exact ⟨linesOf r.mask, exec_evRestore_of_wellFormed hrun hwf c, linesOf_get r.mask⟩

end Sys2Proof.HostOperations
end

section
/-! SUPPORT. What a reset and an acknowledge leave of the timer (70_reset_and_hazards.md R261, R268): the deadline that the
reset arms, and the channel that the acknowledge makes eligible again. -/

namespace Sys2Proof.Machine

theorem initial_isMatched (c : Count) (i : Fin 4) : (Timer.initial c).isMatched i = false := by
  simp [Timer.initial, Timer.isMatched]

/-- Every target is 0, so the deadline is the same for whichever channel the reset selects. -/
theorem initial_reschedule (c : Count) :
    (Timer.initial c).reschedule = { Timer.initial c with wake := some (c + (0 - low32 c).zeroExtend 64) } := by
  cases hn : (Timer.initial c).nearest with
  | none =>
    have hmatched := (Timer_nearest_none _).mp hn 0
    rw [initial_isMatched] at hmatched
    cases hmatched
  | some k =>
    have htarget : (Timer.initial c).compare.get k = 0 := Quad_get_const 0 k
    rw [Timer_reschedule_of_nearest hn, htarget]
    rfl

/-- A reschedule keeps the mask, and with it the eligible channels. -/
@[simp] theorem reschedule_eligible (t : Timer) (i : Fin 4) : t.reschedule.eligible i = t.eligible i :=
  congrArg not (reschedule_isMatched t i)

theorem acknowledge_eligible (t : Timer) {wdata : Word} {i : Fin 4} (hbit : wdata.getLsbD i.val = true) :
    (t.acknowledge (ackMask wdata)).eligible i = true := by
  rw [Timer_eligible_iff, acknowledge_isMatched, ackMask_getLsbD, hbit, Bool.not_true, Bool.and_false]

theorem exec_stWrMatch_of_running {s : State} (hrun : s.halted = false) (wdata : Word) :
    exec (.stWrMatch wdata) s = .next { s with st := (s.st.acknowledge (ackMask wdata)).reschedule, out := .none } :=
  whenRunning_of_running hrun _

end Sys2Proof.Machine
end

section
/-! The obligations of 70_reset_and_hazards.md. -/

namespace Sys2Proof.ResetAndHazards
open Machine

/-- Settles O45: the acknowledge makes the channel eligible at zero distance, and a zero distance fires at once (R176). -/
theorem acknowledgeAtMatchingCountFiresAgain : Obligations.AcknowledgeAtMatchingCountFiresAgain := by
  unfold Obligations.AcknowledgeAtMatchingCountFiresAgain
  intro s i wdata hrun _ hbit htarget
  obtain ⟨hfires, -⟩ := SystemTimer.zeroDeltaFiresImmediately
  have helig : (s.st.acknowledge (ackMask wdata)).reschedule.eligible i = true := by
    rw [reschedule_eligible, acknowledge_eligible _ hbit]
  obtain ⟨hdue, -, u, htick, hmatched, hline⟩ :=
    hfires { s with st := (s.st.acknowledge (ackMask wdata)).reschedule, out := .none } _ i hrun rfl helig
      (by simpa using htarget)
  exact ⟨_, u, exec_stWrMatch_of_running hrun wdata, (Timer_eligible_iff _ i).mp helig, tickDue_iff.mpr hdue, htick,
    hmatched, hline⟩

/-- Settles O49: the meaning of the reset, with the deadline that its reschedule arms (R261). -/
theorem resetPutsEveryElementAtItsValue : Obligations.ResetPutsEveryElementAtItsValue := by
  unfold Obligations.ResetPutsEveryElementAtItsValue
  refine ⟨fun s => ?_, rfl⟩
  have hrow : exec .evReset s = .next (resetWith s (Timer.initial s.params.t0).reschedule) := rfl
  rw [hrow, initial_reschedule]
  rfl

end Sys2Proof.ResetAndHazards
end
